-- ==== Sys2Proof/Word.lean ====
section
/-! DEFINITION. The two word widths of the block (00_scope.md R7): `DATA_WIDTH` is 8 bits and `ADDR_WIDTH` and
`OFFSET_WIDTH` are 16 bits. Arithmetic on them is modulo their width unless a rule says otherwise (R9). -/

namespace Sys2Proof

/-- A byte: every bus transfer and the registers A, X, Y, SP, P, ADH, ADL and DL (R7). -/
abbrev Byte := BitVec 8

/-- A 16-bit address: PC, every bus address and every device-local offset (R7). -/
abbrev Addr := BitVec 16

end Sys2Proof
end

