-- ==== Sys2Proof/Config.lean ====
section
/-! DEFINITION. The block's parameters (00_scope.md R7), as plain data. Each one the source leaves OPEN is a field
here or an argument of `State.construct`; State carries a `Config`, so that every statement about a state holds for
every choice. The `reference` values are the spec's reference configuration (R7, 92_eei_decisions.md D2 to D4). -/

namespace Sys2Proof

/-- `EXT_OPCODES` (R7, 30_encoding.md R93): which of the five ext rows the dispatch table has. -/
structure ExtOpcodes where
  /-- 0x18 CLC -/
  clc : Bool
  /-- 0x58 CLI -/
  cli : Bool
  /-- 0xD8 CLD -/
  cld : Bool
  /-- 0xB8 CLV -/
  clv : Bool
  /-- 0xAD LDA abs -/
  ldaAbs : Bool
  deriving DecidableEq, Repr

/-- Base rows only: `EXT_OPCODES = {}`. -/
def ExtOpcodes.empty : ExtOpcodes :=
  { clc := false, cli := false, cld := false, clv := false, ldaAbs := false }

/-- All five ext rows, which the reference configuration takes (R7, R93). DESIGN CHOICE for State.reset: log 3. -/
def ExtOpcodes.all : ExtOpcodes :=
  { clc := true, cli := true, cld := true, clv := true, ldaAbs := true }

/-- `PC_OVERFLOW` (R7, 40_fetch_dispatch.md R112): what step 2 does at 0xFFFF. -/
inductive PcOverflow where
  /-- 0xFFFF + 1 = 0x0000 -/
  | wrap
  /-- step 2 raises `PcOverflow(PC)` -/
  | fault
  deriving DecidableEq, Repr

/-- One mapping of the address decoder (20_memory.md R57, 10_state.md R38): an inclusive address range and the device
that owns it, named by its id. -/
structure Mapping where
  start : Addr
  stop : Addr
  device : Nat
  deriving DecidableEq, Repr

/-- What is fixed before the first `advance` and never written while the block runs (R7, R57, 70_reset_and_hazards.md
R243). `mappings` is in registration order, which is the order of priority (R58, R59). -/
structure Config where
  ext : ExtOpcodes
  pcOverflow : PcOverflow
  mappings : List Mapping
  deriving DecidableEq, Repr

/-- The reference configuration: all five ext rows (log 3), `wrap` (log 4), and one mapping, 0x0000 to 0x00FF, to
device 0 (95_test_vectors.md section 0; log 5). -/
def Config.reference : Config :=
  { ext := ExtOpcodes.all
    pcOverflow := PcOverflow.wrap
    mappings := [{ start := 0x0000, stop := 0x00FF, device := 0 }] }

/-- The launch state `S0` (R7, 10_state.md R32): the values of the register file at construction. -/
structure Launch where
  a : Byte
  x : Byte
  y : Byte
  sp : Byte
  p : Byte
  adh : Byte
  adl : Byte
  dl : Byte
  pc : Addr
  deriving DecidableEq, Repr

/-- The reference `S0`: every field zero. DESIGN CHOICE (the source gives no value; 92_eei_decisions.md D3): log 2. -/
def Launch.reference : Launch :=
  { a := 0x00, x := 0x00, y := 0x00, sp := 0x00, p := 0x00, adh := 0x00, adl := 0x00, dl := 0x00, pc := 0x0000 }

end Sys2Proof
end

