-- ==== Sys2Proof/Syntax.lean ====
section
/-! DEFINITION. The instructions: one constructor per row of spec/opcode_table.json. The type is the closed tagged
variant of 10_state.md R34: a constructor is an opcode, its arguments are that instance's scratch fields. A fresh
instance has every field unset (`none`); an instruction as it stands encoded in memory has every field set. -/

namespace Sys2Proof

/-- An instruction, and equally an instance of one with its scratch fields (10_state.md R34). -/
inductive Instr where
  /-- `LDA #imm8`, 0xA9, immediate, base row (42_immediate.md R161). `value` is the latched operand. -/
  | ldaImm (value : Option Byte)
  /-- `ADC abs`, 0x6D, absolute, base row (43_absolute.md R182). `lo` and `hi` are the latched address bytes. -/
  | adcAbs (lo hi : Option Byte)
  /-- `STA abs`, 0x8D, absolute, base row (43_absolute.md R184). -/
  | staAbs (lo hi : Option Byte)
  /-- `CLC`, 0x18, implied, ext row (41_implied.md R141). -/
  | clc
  /-- `CLI`, 0x58, implied, ext row (41_implied.md R142). -/
  | cli
  /-- `CLD`, 0xD8, implied, ext row (41_implied.md R143). -/
  | cld
  /-- `CLV`, 0xB8, implied, ext row (41_implied.md R144). -/
  | clv
  /-- `LDA abs`, 0xAD, absolute, ext row (43_absolute.md R185). -/
  | ldaAbs (lo hi : Option Byte)
  deriving DecidableEq, Repr

/-- The three addressing-mode classes (30_encoding.md R90). -/
inductive AddressingMode where
  /-- IMP: 1 byte, 2 cycles -/
  | implied
  /-- IMM: 2 bytes, 2 cycles -/
  | immediate
  /-- ABS: 3 bytes, 4 cycles -/
  | absolute
  deriving DecidableEq, Repr

end Sys2Proof
end

