-- ==== Sys2Proof/WellFormed.lean ====
section
/-! DEFINITION. When an instruction is one that can stand encoded in memory under a configuration: its row is in the
configured table (30_encoding.md R93) and every operand byte it has is set (R90). -/

namespace Sys2Proof

/-- Its row is in the dispatch table: the base rows always are, an ext row when configured (R93). -/
def Instr.configured (ext : ExtOpcodes) : Instr → Bool
  | .ldaImm _ => true
  | .adcAbs _ _ => true
  | .staAbs _ _ => true
  | .clc => ext.clc
  | .cli => ext.cli
  | .cld => ext.cld
  | .clv => ext.clv
  | .ldaAbs _ _ => ext.ldaAbs

/-- Every operand byte of its format is set (R90): the instance is fully latched. -/
def Instr.latched : Instr → Bool
  | .ldaImm value => value.isSome
  | .adcAbs lo hi => lo.isSome && hi.isSome
  | .staAbs lo hi => lo.isSome && hi.isSome
  | .clc => true
  | .cli => true
  | .cld => true
  | .clv => true
  | .ldaAbs lo hi => lo.isSome && hi.isSome

/-- Both checks. -/
def Instr.wf (ext : ExtOpcodes) (i : Instr) : Bool :=
  i.configured ext && i.latched

end Sys2Proof
end

