-- ==== Sys2Proof/Decode.lean ====
section
/-! DEFINITION. Decoding and encoding (30_encoding.md). `decodeOpcode` is the block's own dispatch function (R94): it
reads one byte. `decode` reads a whole instruction from a byte list, for statements about bytes in memory; `encode`
writes one. -/

namespace Sys2Proof

/-- The opcode byte of a row (R93). -/
def Instr.opcode : Instr → Byte
  | .ldaImm _ => 0xA9
  | .adcAbs _ _ => 0x6D
  | .staAbs _ _ => 0x8D
  | .clc => 0x18
  | .cli => 0x58
  | .cld => 0xD8
  | .clv => 0xB8
  | .ldaAbs _ _ => 0xAD

/-- The addressing-mode class of a row (R93). -/
def Instr.mode : Instr → AddressingMode
  | .ldaImm _ => .immediate
  | .adcAbs _ _ => .absolute
  | .staAbs _ _ => .absolute
  | .clc => .implied
  | .cli => .implied
  | .cld => .implied
  | .clv => .implied
  | .ldaAbs _ _ => .absolute

/-- Bytes per class (R90). -/
def AddressingMode.length : AddressingMode → Nat
  | .implied => 1
  | .immediate => 2
  | .absolute => 3

/-- Cycles per class (R90, 40_fetch_dispatch.md R124). -/
def AddressingMode.cycles : AddressingMode → Nat
  | .implied => 2
  | .immediate => 2
  | .absolute => 4

/-- The cycle in which the instruction's own effect lands: IMP 1, IMM 1, ABS 2 (40_fetch_dispatch.md R122). -/
def AddressingMode.effectCycle : AddressingMode → Nat
  | .implied => 1
  | .immediate => 1
  | .absolute => 2

/-- The dispatch function `decode(b)` of R94: a fresh instance, scratch unset, when `b` is a row of the configured
table, else none. It reads nothing but `b`. -/
def decodeOpcode (ext : ExtOpcodes) (b : Byte) : Option Instr :=
  if b = 0xA9 then some (.ldaImm none)
  else if b = 0x6D then some (.adcAbs none none)
  else if b = 0x8D then some (.staAbs none none)
  else if b = 0xAD ∧ ext.ldaAbs = true then some (.ldaAbs none none)
  else if b = 0x18 ∧ ext.clc = true then some .clc
  else if b = 0x58 ∧ ext.cli = true then some .cli
  else if b = 0xD8 ∧ ext.cld = true then some .cld
  else if b = 0xB8 ∧ ext.clv = true then some .clv
  else none

/-- Why a byte list is no instruction. -/
inductive DecodeReject where
  /-- there is no opcode byte -/
  | empty
  /-- the first byte is not in the configured table (R95) -/
  | unrecognized (op : Byte)
  /-- the list ends before the operand bytes of its format (R90) -/
  | truncated (op : Byte)
  deriving DecidableEq, Repr

/-- Give a fresh instance its operand bytes from the bytes that follow its opcode, low address byte first
(R90 to R92, 20_memory.md R66); answers the instruction and the rest of the list. -/
def latchOperands (op : Byte) (i : Instr) (bytes : List Byte) : Except DecodeReject (Instr × List Byte) :=
  match i, bytes with
  | .ldaImm _, value :: rest => .ok (.ldaImm (some value), rest)
  | .adcAbs _ _, lo :: hi :: rest => .ok (.adcAbs (some lo) (some hi), rest)
  | .staAbs _ _, lo :: hi :: rest => .ok (.staAbs (some lo) (some hi), rest)
  | .ldaAbs _ _, lo :: hi :: rest => .ok (.ldaAbs (some lo) (some hi), rest)
  | .clc, rest => .ok (.clc, rest)
  | .cli, rest => .ok (.cli, rest)
  | .cld, rest => .ok (.cld, rest)
  | .clv, rest => .ok (.clv, rest)
  | .ldaImm _, _ => .error (.truncated op)
  | .adcAbs _ _, _ => .error (.truncated op)
  | .staAbs _ _, _ => .error (.truncated op)
  | .ldaAbs _ _, _ => .error (.truncated op)

/-- The instruction at the head of a byte list, and the bytes after it; total, rejecting by name. -/
def decode (ext : ExtOpcodes) (bytes : List Byte) : Except DecodeReject (Instr × List Byte) :=
  match bytes with
  | [] => .error .empty
  | op :: rest =>
    match decodeOpcode ext op with
    | none => .error (.unrecognized op)
    | some i => latchOperands op i rest

/-- The bytes of an instruction (R90 to R92); none when an operand byte is unset, since such a term is no encoded
instruction. -/
def encode (i : Instr) : Option (List Byte) :=
  match i with
  | .ldaImm (some value) => some [0xA9, value]
  | .adcAbs (some lo) (some hi) => some [0x6D, lo, hi]
  | .staAbs (some lo) (some hi) => some [0x8D, lo, hi]
  | .clc => some [0x18]
  | .cli => some [0x58]
  | .cld => some [0xD8]
  | .clv => some [0xB8]
  | .ldaAbs (some lo) (some hi) => some [0xAD, lo, hi]
  | .ldaImm none => none
  | .adcAbs _ _ => none
  | .staAbs _ _ => none
  | .ldaAbs _ _ => none

/-- The three bytes, first byte lowest, of an instruction whose bits are the low `nbits` of `w`, every higher bit
zero; three bytes are the longest instruction (R90). -/
def tableBytes (nbits w : Nat) : List Byte :=
  let bits := w % 2 ^ nbits
  [BitVec.ofNat 8 bits, BitVec.ofNat 8 (bits / 256), BitVec.ofNat 8 (bits / 65536)]

/-- The instruction the decoder reads, under the reference table with all five ext rows (log 3), from an instruction
whose bits are `w` as spec/opcode_table.json numbers them. -/
def decodeTableWord (nbits w : Nat) : Option Instr :=
  match decode ExtOpcodes.all (tableBytes nbits w) with
  | .ok (i, _) => some i
  | .error _ => none

end Sys2Proof
end

