-- ==== Sys2Proof/Machine/State.lean ====
section
/-! DEFINITION. The machine's state as plain data (10_state.md R38), the reasons a step can stop, and the state after
construction. -/

namespace Sys2Proof.Machine

open Sys2Proof

/-- The contents of a device: (offset, byte) pairs in one canonical form, see `Memory.wf`. -/
abbrev Memory := List Host.Cell

/-- A conforming device (20_memory.md R52 to R55): its capacity `CAP_d` in bytes, whether it is read-only (`RO_d`),
and its contents. -/
structure Device where
  capacity : Nat
  readOnly : Bool
  contents : Memory
  deriving DecidableEq, Repr

/-- One call of `register(range, device)` (20_memory.md R58): an inclusive range, and the device handed over with it. -/
structure Registration where
  start : Addr
  stop : Addr
  device : Device
  deriving DecidableEq, Repr

/-- The fault records of 60_exceptions.md R210 and R211. A raise puts one into `State.fault`; it is not an outcome that
loses the state (R212, log 7). -/
inductive FaultInfo where
  /-- code 1: a handler called with a cycle index its class does not declare; opcode, index, PC after step 2, DL -/
  | cycleContractViolation (op : Byte) (cycle : Nat) (pc : Addr) (dl : Byte)
  /-- code 2: the decoder passes a device an offset at or beyond its capacity -/
  | deviceOffsetOutOfRange (address : Addr) (offset : Addr) (device : Nat)
  /-- code 3: step 2 at PC = 0xFFFF with `PC_OVERFLOW = fault` -/
  | pcOverflow (pc : Addr)
  deriving DecidableEq, Repr

/-- One completed bus transaction through the decoder (20_memory.md R52, R68). -/
inductive Transaction where
  /-- a read: the 16-bit bus address and the byte that came back -/
  | read (address : Addr) (value : Byte)
  /-- a write: the 16-bit bus address and the byte sent -/
  | write (address : Addr) (value : Byte)
  deriving DecidableEq, Repr

/-- The whole state: the register file (10_state.md R20), the engine's own state (R33 to R36), the bus (R38), and the
parameters of the configuration (00_scope.md R7). `traffic` is the model's own record (log 14). -/
structure State where
  /-- accumulator (R21) -/
  a : Byte
  /-- index X (R22) -/
  x : Byte
  /-- index Y (R22) -/
  y : Byte
  /-- stack pointer (R23) -/
  sp : Byte
  /-- status flags (R27) -/
  p : Byte
  /-- address-high bus latch (R26) -/
  adh : Byte
  /-- address-low bus latch (R26) -/
  adl : Byte
  /-- data latch (R25) -/
  dl : Byte
  /-- program counter (R24) -/
  pc : Addr
  /-- the active instance with its scratch (R33, R34) -/
  inst : Option Instr
  /-- the cycle index (R35) -/
  cycle : Nat
  /-- the fault record, sticky once set (R36, 60_exceptions.md R213) -/
  fault : Option FaultInfo
  /-- the fixed parameters, the mapping list among them (00_scope.md R7, 20_memory.md R57) -/
  config : Config
  /-- device states; a device's id is its place in the list (R38) -/
  devices : List Device
  /-- the model's own record: the transactions the latest call performed, in order (R68, log 14) -/
  traffic : List Transaction
  deriving DecidableEq, Repr

/-- The faults a step can end in. -/
inductive Fault where
  /-- Raised by an immediate handler's cycle 1 or an absolute handler's cycle 2 on a scratch field that is unset
  (10_state.md R34, 92_eei_decisions.md D16); carries the opcode and the cycle. Safe: the model stops, and no run of the
  rules reaches it (log 10). -/
  | unsetScratch (op : Byte) (cycle : Nat)
  deriving DecidableEq, Repr

/-- The refusals a step can end in. -/
inductive Refusal where
  /-- Raised by an arm of `exec` whose instruction has no meaning yet; no arm does. Safe: the model stops. -/
  | notModelled (mnemonic : String)
  /-- Raised by `step` on a state whose `fault` is set: the call is refused and has no step (40_fetch_dispatch.md R110,
  60_exceptions.md R213); carries the record. Safe: the model stops where the spec says there is no step. -/
  | afterFatal (info : FaultInfo)
  deriving DecidableEq, Repr

/-- The block as construction leaves it (70_reset_and_hazards.md R240, R242): the launch values `S0`, the
configuration and the devices are the system assembly's; `inst = none`, `cycle = 0` and `fault = none`. -/
def State.construct (s0 : Launch) (config : Config) (devices : List Device) : State :=
  { a := s0.a, x := s0.x, y := s0.y, sp := s0.sp, p := s0.p
    adh := s0.adh, adl := s0.adl, dl := s0.dl, pc := s0.pc
    inst := none, cycle := 0, fault := none
    config := config, devices := devices, traffic := [] }

/-- The read/write device of capacity 0x100 that the reference configuration maps at 0x0000 (95_test_vectors.md
section 0), with nothing listed. DESIGN CHOICE: log 5. -/
def Device.referenceRam : Device :=
  { capacity := 0x100, readOnly := false, contents := [] }

/-- The machine right after reset, which is construction (R240), in the reference configuration: log 2 to log 6 name
the values the spec leaves open. -/
def State.reset : State :=
  State.construct Launch.reference Config.reference [Device.referenceRam]

end Sys2Proof.Machine
end

