-- ==== Sys2Proof/Machine/Flags.lean ====
section
/-! DEFINITION. The status register P (10_state.md R27 to R30) and the flag computations of the instructions
(42_immediate.md R160, 43_absolute.md R182 and R183). Every mutation is a set or clear of one named bit (R30). -/

namespace Sys2Proof.Machine

open Sys2Proof

/-- The bits of P, by the names of R27. -/
inductive Flag where
  | carry
  | zero
  | irqDisable
  | decimalMode
  | brk
  | reserved
  | overflow
  | negative
  deriving DecidableEq, Repr

/-- The masks of R27. -/
def Flag.mask : Flag → Byte
  | .carry => 0x01
  | .zero => 0x02
  | .irqDisable => 0x04
  | .decimalMode => 0x08
  | .brk => 0x10
  | .reserved => 0x20
  | .overflow => 0x40
  | .negative => 0x80

/-- `test(b) = ((P & b) != 0)` (R28). -/
def testFlag (f : Flag) (p : Byte) : Bool :=
  (p &&& f.mask) != 0

/-- `set(b)`: `P <- P | b` (R28). -/
def setFlag (f : Flag) (p : Byte) : Byte :=
  p ||| f.mask

/-- `clear(b)`: `P <- P & ~b` (R28). -/
def clearFlag (f : Flag) (p : Byte) : Byte :=
  p &&& ~~~ f.mask

/-- `P.F <- cond` (R29). -/
def assignFlag (f : Flag) (cond : Bool) (p : Byte) : Byte :=
  if cond then setFlag f p else clearFlag f p

/-- `v[7]`, the bit NEGATIVE and OVERFLOW are computed from. -/
def bit7 (v : Byte) : Bool :=
  v.getLsbD 7

/-- The load flags: `P.Z <- (value == 0)`, `P.N <- value[7]` (42_immediate.md R160, 43_absolute.md R185). -/
def loadFlags (value p : Byte) : Byte :=
  assignFlag .negative (bit7 value) (assignFlag .zero (value == 0) p)

/-- The exact 9-bit sum of add-with-carry, 0 to 511 (43_absolute.md R182). -/
def adcTotal (a m : Byte) (carry : Bool) : BitVec 9 :=
  a.zeroExtend 9 + m.zeroExtend 9 + (BitVec.ofBool carry).zeroExtend 9

/-- The sum truncated to 8 bits (R182). -/
def adcResult (a m : Byte) (carry : Bool) : Byte :=
  (adcTotal a m carry).truncate 8

/-- The flags of add-with-carry from the original accumulator `a`, the operand and the carry-in of `p`:
C iff `total > 255`, Z, N, and V by the as-built formula, bit 7 of `a` against bit 7 of the result (R182, R186).
DECIMAL_MODE has no part in it (R187). -/
def adcFlags (a m p : Byte) : Byte :=
  let carry := testFlag .carry p
  let r := adcResult a m carry
  let p1 := assignFlag .carry (255#9 < adcTotal a m carry) p
  let p2 := assignFlag .zero (r == 0) p1
  let p3 := assignFlag .negative (bit7 r) p2
  assignFlag .overflow (bit7 a != bit7 r) p3

end Sys2Proof.Machine
end

