-- ==== Sys2Proof/Machine/Operands.lean ====
section
/-! DEFINITION. Address composition and the operand forms (20_memory.md R51, R66; 30_encoding.md R91, R92). The
implied class has no operand; the immediate operand is its latched byte; the absolute operand is an address formed from
two latched bytes. -/

namespace Sys2Proof.Machine

open Sys2Proof

/-- `(zext_16(high) << 8) | zext_16(low)` (R51). -/
def joinBytes (high low : Byte) : Addr :=
  (high.zeroExtend 16 <<< 8) ||| low.zeroExtend 16

/-- Bits 15 to 8 of an address (R66). -/
def highByte (address : Addr) : Byte :=
  address.extractLsb' 8 8

/-- Bits 7 to 0 of an address (R66). -/
def lowByte (address : Addr) : Byte :=
  address.extractLsb' 0 8

/-- The effective address of an absolute instruction, from its two latched bytes in stream order: low, then high.
No index, no offset, no extension (30_encoding.md R92, 43_absolute.md R181). -/
def effectiveAddress (lo hi : Byte) : Addr :=
  joinBytes hi lo

end Sys2Proof.Machine
end

