-- ==== Sys2Proof/Machine/Ops.lean ====
section
/-! DEFINITION. The named operations over memory, the bus, the registers and the engine's own state, each written once:
device contents, the device port, the address decoder (20_memory.md), the raise of a fault (60_exceptions.md), the two
first steps of `advance` and its reaction to a handler (40_fetch_dispatch.md), and the three cycle contracts' shared
parts. -/

namespace Sys2Proof.Machine

open Sys2Proof

/-! ## Device contents: a canonical list -/

/-- What an offset that is not listed reads as: the reference `INIT_d` (95_test_vectors.md section 0). DESIGN CHOICE,
since `INIT_d` is OPEN (92_eei_decisions.md D10): log 6. -/
def Memory.unlisted : Byte := 0x00

/-- The byte at an offset. -/
def Memory.read : Memory → Nat → Byte
  | [], _ => Memory.unlisted
  | (k, v) :: rest, offset => if offset = k then v else Memory.read rest offset

/-- A list with `v` put at `offset` before `rest`, unless `v` is what an unlisted offset reads as. -/
def Memory.cons (offset : Nat) (v : Byte) (rest : Memory) : Memory :=
  if v = Memory.unlisted then rest else (offset, v) :: rest

/-- Put one byte, keeping the canonical form. -/
def Memory.write : Memory → Nat → Byte → Memory
  | [], offset, v => Memory.cons offset v []
  | (k, w) :: rest, offset, v =>
    if offset < k then Memory.cons offset v ((k, w) :: rest)
    else if offset = k then Memory.cons offset v rest
    else (k, w) :: Memory.write rest offset v

/-- Offsets strictly rising from `low` on, and no entry equal to what an unlisted offset reads as. -/
def Memory.wfFrom : Nat → Memory → Bool
  | _, [] => true
  | low, (k, v) :: rest => decide (low ≤ k) && decide (v ≠ Memory.unlisted) && Memory.wfFrom (k + 1) rest

/-- The canonical form: equal contents are equal lists. -/
def Memory.wf (m : Memory) : Bool :=
  Memory.wfFrom 0 m

/-! ## The device port (20_memory.md R52 to R56) -/

/-- A mapping to an id that no device has reaches this device, which accepts no offset: the access raises
`DeviceOffsetOutOfRange`. DESIGN CHOICE, safe: log 11. -/
def Device.absent : Device :=
  { capacity := 0, readOnly := true, contents := [] }

/-- Whether the device has the offset (R53). -/
def Device.accepts (d : Device) (offset : Addr) : Bool :=
  decide (offset.toNat < d.capacity)

/-- `read(offset)` (R52, R55): the byte most recently written there, else the initial content; no side effect (R56). -/
def Device.read (d : Device) (offset : Addr) : Byte :=
  d.contents.read offset.toNat

/-- `write(offset, byte)` (R52, R55); a read-only device accepts it as a no-op (R54). -/
def Device.write (d : Device) (offset : Addr) (v : Byte) : Device :=
  if d.readOnly then d else { d with contents := d.contents.write offset.toNat v }

/-- The device's contents are canonical and list no offset at or beyond its capacity. -/
def Device.wf (d : Device) : Bool :=
  d.contents.wf && d.contents.all (fun cell => decide (cell.1 < d.capacity))

/-! ## The address decoder (20_memory.md R57 to R65) -/

end Sys2Proof.Machine

namespace Sys2Proof

/-- The inclusive range test; a mapping with `start > stop` contains nothing (R59). -/
def Mapping.contains (m : Mapping) (address : Addr) : Bool :=
  decide (m.start ≤ address) && decide (address ≤ m.stop)

/-- The device-local offset of an address in a mapping (R60). -/
def Mapping.offset (m : Mapping) (address : Addr) : Addr :=
  address - m.start

/-- The mapping list's part of `register` (R58): the new mapping goes at the end, so it has the lowest priority, and
nothing is validated. -/
def Config.register (c : Config) (m : Mapping) : Config :=
  { c with mappings := c.mappings ++ [m] }

end Sys2Proof

namespace Sys2Proof.Machine

open Sys2Proof

/-- `register(range, device)` (R58): the mapping goes at the end of the list, and the block takes the device over, under
an id of its own, which no mapping of a block that owns its devices names yet. It does not validate disjointness.
Assembly-time only. -/
def State.register (s : State) (r : Registration) : State :=
  { s with
    config := s.config.register { start := r.start, stop := r.stop, device := s.devices.length }
    devices := s.devices ++ [r.device] }

/-- The system assembly (70_reset_and_hazards.md R242): the registrations in the order that sets their priority, on a
block that owns no device yet, with the launch state `S0` and the parameters. -/
def State.assemble (s0 : Launch) (ext : ExtOpcodes) (pcOverflow : PcOverflow) (registrations : List Registration) :
    State :=
  registrations.foldl State.register
    (State.construct s0 { ext := ext, pcOverflow := pcOverflow, mappings := [] } [])

/-- First match in registration order (R59). -/
def resolve (mappings : List Mapping) (address : Addr) : Option Mapping :=
  mappings.find? (fun m => m.contains address)

/-- The device with an id. -/
def State.device (s : State) (id : Nat) : Device :=
  (s.devices[id]?).getD Device.absent

/-- What a read of an address no mapping contains returns (R60). -/
def openBus : Byte := 0x00

/-- `MemRead(address, 1)` (R60), or the fault of R53. A read changes nothing (R56). -/
def State.busRead (s : State) (address : Addr) : Except FaultInfo Byte :=
  match resolve s.config.mappings address with
  | none => .ok openBus
  | some m =>
    if (s.device m.device).accepts (m.offset address) then .ok ((s.device m.device).read (m.offset address))
    else .error (.deviceOffsetOutOfRange address (m.offset address) m.device)

/-- Replace the device with an id. -/
def State.withDevice (s : State) (id : Nat) (d : Device) : State :=
  { s with devices := s.devices.set id d }

/-- `MemWrite(address, 1, v)` (R61), or the fault of R53. -/
def State.busWrite (s : State) (address : Addr) (v : Byte) : Except FaultInfo State :=
  match resolve s.config.mappings address with
  | none => .ok s
  | some m =>
    if (s.device m.device).accepts (m.offset address) then
      .ok (s.withDevice m.device ((s.device m.device).write (m.offset address) v))
    else .error (.deviceOffsetOutOfRange address (m.offset address) m.device)

/-- `read_split(high, low)` (R62). -/
def State.readSplit (s : State) (high low : Byte) : Except FaultInfo Byte :=
  s.busRead (joinBytes high low)

/-- `write_split(high, low, value)` (R62). -/
def State.writeSplit (s : State) (high low v : Byte) : Except FaultInfo State :=
  s.busWrite (joinBytes high low) v

/-- The storage an address reaches: device id and offset, or none for open bus. Two addresses share a byte exactly when
they have the same storage (log 12). -/
def State.storage (s : State) (address : Addr) : Option (Nat × Addr) :=
  (resolve s.config.mappings address).map (fun m => (m.device, m.offset address))

/-! ## Registers and the engine's fields -/

/-- `A <- v`. -/
def State.withA (s : State) (v : Byte) : State :=
  { s with a := v }

/-- `P <- p`, after the flag operations of Flags.lean. -/
def State.withP (s : State) (p : Byte) : State :=
  { s with p := p }

/-- `PC <- PC + 1` (40_fetch_dispatch.md R112), modulo 2^16. -/
def State.incrementPc (s : State) : State :=
  { s with pc := s.pc + 1 }

/-- The program-counter correction `PC <- PC - 1` (R120), modulo 2^16. -/
def State.correctPc (s : State) : State :=
  { s with pc := s.pc - 1 }

/-- The transactions of the call so far (log 14). -/
def State.withTraffic (s : State) (traffic : List Transaction) : State :=
  { s with traffic := traffic }

/-- Step 1's effect: `DL <- b` and, as the call's first transaction, the fetch at PC (R111, 20_memory.md R68). -/
def State.latchFetch (s : State) (b : Byte) : State :=
  { s with dl := b, traffic := [.read s.pc b] }

/-- `inst <- decode(DL); cycle <- 0` (R115, R116). -/
def State.dispatchNext (s : State) : State :=
  { s with inst := decodeOpcode s.config.ext s.dl, cycle := 0 }

/-- `cycle <- cycle + 1` (R114) with the instance as its handler left it: the scratch it wrote is in `i` (R121). -/
def State.continueWith (s : State) (i : Instr) : State :=
  { s with inst := some i, cycle := s.cycle + 1 }

/-- `raise F(info)`, the one way an exceptional condition is taken: the call ends, everything before the raise stays,
`inst` and `cycle` keep their values, `fault <- info` (R118, 60_exceptions.md R212). There is no handler to enter and no
return (R217, R218). -/
def State.raiseFault (s : State) (info : FaultInfo) : State :=
  { s with fault := some info }

/-! ## Accesses made by a handler -/

/-- A handler's read at `address`: the byte, and the state with the transaction recorded. It does not write DL
(10_state.md R25). -/
def State.handlerRead (s : State) (address : Addr) : Except FaultInfo (Byte × State) :=
  match s.busRead address with
  | .ok v => .ok (v, s.withTraffic (s.traffic ++ [.read address v]))
  | .error info => .error info

/-- A handler's write at `address`, with the transaction recorded. -/
def State.handlerWrite (s : State) (address : Addr) (v : Byte) : Except FaultInfo State :=
  match s.busWrite address v with
  | .ok s' => .ok (s'.withTraffic (s'.traffic ++ [.write address v]))
  | .error info => .error info

/-! ## `advance`: steps 1 and 2, and the reaction to a handler -/

/-- Steps 1 and 2 (R111, R112): `.ok` is the state the handler or the idle decode sees; `.error` is the state in which a
raise left the call: by the fetch, nothing but `fault` changed; by the increment, DL is written and PC is not. -/
def fetchStage (s : State) : Except State State :=
  match s.readSplit (highByte s.pc) (lowByte s.pc) with
  | .error info => .error ((s.withTraffic []).raiseFault info)
  | .ok b =>
    if s.pc = 0xFFFF ∧ s.config.pcOverflow = PcOverflow.fault then .error ((s.latchFetch b).raiseFault (.pcOverflow s.pc))
    else .ok (s.latchFetch b).incrementPc

/-- What a cycle handler answers (R113). -/
inductive Handled where
  /-- `Continue`, with the instance's scratch as the handler left it -/
  | continued (i : Instr) (s : State)
  /-- `Finished` -/
  | finished (s : State)
  /-- a raise, with the state as the statements before it left it -/
  | raised (info : FaultInfo) (s : State)
  /-- a scratch field was read while unset (10_state.md R34) -/
  | unset (r : Fault)
  deriving DecidableEq, Repr

/-- The engine's reaction to its handler (R114, R115, R118). -/
def react (h : Handled) : Host.Outcome State Fault Refusal :=
  match h with
  | .continued i s => .next (s.continueWith i)
  | .finished s => .next s.dispatchNext
  | .raised info s => .next (s.raiseFault info)
  | .unset r => .fault r

/-- `raise CycleContractViolation(op, cycle)`: the record takes PC after step 2 and DL (60_exceptions.md R210, R211). -/
def cycleContract (op : Byte) (s : State) : Handled :=
  .raised (.cycleContractViolation op s.cycle s.pc s.dl) s

/-! ## The three cycle contracts (41_implied.md R140, 42_immediate.md R160, 43_absolute.md R180) -/

/-- R140: cycle 0 corrects PC, cycle 1 is the effect and finishes. -/
def impliedHandler (i : Instr) (effect : State → State) (s : State) : Handled :=
  match s.cycle with
  | 0 => .continued i s.correctPc
  | 1 => .finished (effect s)
  | _ + 2 => cycleContract i.opcode s

/-- R160: cycle 0 latches DL, cycle 1 commits the latched value (not DL) and finishes. -/
def immediateHandler (make : Option Byte → Instr) (value : Option Byte) (commit : Byte → State → State) (s : State) :
    Handled :=
  match s.cycle with
  | 0 => .continued (make (some s.dl)) s
  | 1 =>
    match value with
    | some v => .finished (commit v s)
    | none => .unset (.unsetScratch (make value).opcode s.cycle)
  | _ + 2 => cycleContract (make value).opcode s

/-- R180: cycles 0 and 1 latch the address bytes, cycle 2 corrects PC, forms the address and performs the operation,
cycle 3 is the filler that finishes. A raise by the operation's access keeps the correction (60_exceptions.md R212). -/
def absoluteHandler (make : Option Byte → Option Byte → Instr) (lo hi : Option Byte)
    (operation : Addr → State → Except FaultInfo State) (s : State) : Handled :=
  match s.cycle with
  | 0 => .continued (make (some s.dl) hi) s
  | 1 => .continued (make lo (some s.dl)) s
  | 2 =>
    match lo, hi with
    | some l, some h =>
      match operation (effectiveAddress l h) s.correctPc with
      | .ok s' => .continued (make lo hi) s'
      | .error info => .raised info s.correctPc
    | none, _ => .unset (.unsetScratch (make lo hi).opcode s.cycle)
    | some _, none => .unset (.unsetScratch (make lo hi).opcode s.cycle)
  | 3 => .finished s
  | _ + 4 => cycleContract (make lo hi).opcode s

/-! ## The result of a call (40_fetch_dispatch.md R110, R117) -/

/-- What `advance` returns. -/
inductive AdvanceResult where
  /-- `Running(b)` -/
  | running (active : Bool)
  /-- `Fatal(info)` -/
  | fatal (info : FaultInfo)
  deriving DecidableEq, Repr

/-- The result of the call that ended in this state: `Fatal(info)` when it raised, else `Running(inst != none)`. -/
def State.result (s : State) : AdvanceResult :=
  match s.fault with
  | some info => .fatal info
  | none => .running s.inst.isSome

/-! ## Placing an instruction before a run (70_reset_and_hazards.md R242: the program loader's work) -/

/-- Map one new one-byte device at `address`, first in priority. -/
def State.plugByte (s : State) (address : Addr) (b : Byte) : State :=
  { s with
    config := { s.config with mappings := { start := address, stop := address, device := s.devices.length } :: s.config.mappings }
    devices := s.devices ++ [{ capacity := 1, readOnly := false, contents := Memory.write [] 0 b }] }

/-- Put a byte where a fetch at `address` finds it: into the device that owns the address, read-only or not, as a
loader does; where no device can hold it, map one there. -/
def State.placeByte (s : State) (address : Addr) (b : Byte) : State :=
  match resolve s.config.mappings address with
  | none => s.plugByte address b
  | some m =>
    let d := s.device m.device
    if d.accepts (m.offset address) then
      s.withDevice m.device { d with contents := d.contents.write (m.offset address).toNat b }
    else s.plugByte address b

/-- Place bytes at successive addresses. -/
def State.placeBytes (s : State) : Addr → List Byte → State
  | _, [] => s
  | address, b :: rest => (s.placeByte address b).placeBytes (address + 1) rest

/-- Make a fetch at `address` possible: where it would raise, map a zero byte there. -/
def State.ensureFetch (s : State) (address : Addr) : State :=
  match s.busRead address with
  | .ok _ => s
  | .error _ => s.plugByte address 0x00

/-- The state in which the next call runs the effect cycle of the instruction whose bytes stand at PC: the bytes
placed, and the instance, its latched operands, the cycle index and PC as the calls before that one leave them
(40_fetch_dispatch.md R122, R123). Bytes the table does not recognize are only placed, and the next call fetches them
with no instance active. Log 15. -/
def State.placeInstruction (s : State) (bytes : List Byte) : State :=
  let placed := s.placeBytes s.pc bytes
  match decode s.config.ext bytes with
  | .ok (i, _) =>
    let next := s.pc + BitVec.ofNat 16 i.mode.length
    { placed.ensureFetch next with inst := some i, cycle := i.mode.effectCycle, pc := next, fault := none }
  | .error _ => { placed with inst := none, cycle := 0, fault := none }

end Sys2Proof.Machine
end

