-- ==== Sys2Proof/Machine/Immediate.lean ====
section
/-! DEFINITION. The immediate class (42_immediate.md R160, R161). -/

namespace Sys2Proof.Machine

open Sys2Proof

/-- `A <- v` with Z and N: the commit of both loads (42_immediate.md R161, 43_absolute.md R185). -/
def loadAccumulator (v : Byte) (s : State) : State :=
  (s.withA v).withP (loadFlags v s.p)

/-- LDA #imm8 0xA9 (R161): cycle 0 latches the operand, cycle 1 commits it into A with Z and N. -/
def execLdaImm (value : Option Byte) (s : State) : Host.Outcome State Fault Refusal :=
  react (immediateHandler .ldaImm value loadAccumulator s)

end Sys2Proof.Machine
end

