-- ==== Sys2Proof/Machine/Absolute.lean ====
section
/-! DEFINITION. The absolute class (43_absolute.md R180 to R187). Each operation is cycle 2's `OPERATION(op, ea)`: one
access at `ea`, then the arithmetic and the flags. -/

namespace Sys2Proof.Machine

open Sys2Proof

/-- R182: read the operand, then `A`, C, Z, N and V from the original accumulator and carry. -/
def adcOperation (ea : Addr) (s : State) : Except FaultInfo State :=
  match s.handlerRead ea with
  | .error info => .error info
  | .ok (m, s') => .ok ((s'.withA (adcResult s.a m (testFlag .carry s.p))).withP (adcFlags s.a m s.p))

/-- R184: `MemWrite(ea, 1, A)`. -/
def staOperation (ea : Addr) (s : State) : Except FaultInfo State :=
  s.handlerWrite ea s.a

/-- R185: read the operand into `A` with Z and N. -/
def ldaAbsOperation (ea : Addr) (s : State) : Except FaultInfo State :=
  match s.handlerRead ea with
  | .error info => .error info
  | .ok (m, s') => .ok (loadAccumulator m s')

/-- ADC abs 0x6D (R182). -/
def execAdcAbs (lo hi : Option Byte) (s : State) : Host.Outcome State Fault Refusal :=
  react (absoluteHandler .adcAbs lo hi adcOperation s)

/-- STA abs 0x8D (R184). -/
def execStaAbs (lo hi : Option Byte) (s : State) : Host.Outcome State Fault Refusal :=
  react (absoluteHandler .staAbs lo hi staOperation s)

/-- LDA abs 0xAD (R185). -/
def execLdaAbs (lo hi : Option Byte) (s : State) : Host.Outcome State Fault Refusal :=
  react (absoluteHandler .ldaAbs lo hi ldaAbsOperation s)

end Sys2Proof.Machine
end

