-- ==== Sys2Proof/Machine/Implied.lean ====
section
/-! DEFINITION. The implied class: the clear-flag instructions (41_implied.md R140 to R144). Each meaning is the call of
the instruction's cycle handler at the state's cycle index, with the engine's reaction to it. -/

namespace Sys2Proof.Machine

open Sys2Proof

/-- CLC 0x18 (R141): cycle 1 does `P <- P & ~0x01`. -/
def execClc (s : State) : Host.Outcome State Fault Refusal :=
  react (impliedHandler .clc (fun s => s.withP (clearFlag .carry s.p)) s)

/-- CLI 0x58 (R142): cycle 1 does `P <- P & ~0x04`. -/
def execCli (s : State) : Host.Outcome State Fault Refusal :=
  react (impliedHandler .cli (fun s => s.withP (clearFlag .irqDisable s.p)) s)

/-- CLD 0xD8 (R143): cycle 1 does `P <- P & ~0x08`. -/
def execCld (s : State) : Host.Outcome State Fault Refusal :=
  react (impliedHandler .cld (fun s => s.withP (clearFlag .decimalMode s.p)) s)

/-- CLV 0xB8 (R144): cycle 1 does `P <- P & ~0x40`. -/
def execClv (s : State) : Host.Outcome State Fault Refusal :=
  react (impliedHandler .clv (fun s => s.withP (clearFlag .overflow s.p)) s)

end Sys2Proof.Machine
end

