-- ==== Sys2Proof/Machine/Dispatch.lean ====
section
/-! DEFINITION. Step 3 of `advance` (40_fetch_dispatch.md R113 to R115): the call of the active instance's cycle handler
at the state's cycle index, and the engine's reaction. One arm per row of the opcode table. -/

namespace Sys2Proof.Machine

open Sys2Proof

def exec (i : Instr) (s : State) : Host.Outcome State Fault Refusal :=
  match i with
  | .ldaImm value => Sys2Proof.Machine.execLdaImm value s
  | .adcAbs lo hi => Sys2Proof.Machine.execAdcAbs lo hi s
  | .staAbs lo hi => Sys2Proof.Machine.execStaAbs lo hi s
  | .clc => Sys2Proof.Machine.execClc s
  | .cli => Sys2Proof.Machine.execCli s
  | .cld => Sys2Proof.Machine.execCld s
  | .clv => Sys2Proof.Machine.execClv s
  | .ldaAbs lo hi => Sys2Proof.Machine.execLdaAbs lo hi s

end Sys2Proof.Machine
end

