-- ==== Sys2Proof/Machine/Step.lean ====
section
/-! DEFINITION. One step is one `advance` call (40_fetch_dispatch.md R118, 00_scope.md R8). A raise is a next state whose
`fault` is set (60_exceptions.md R212); what the call returned is `State.result` of the state it left. -/

namespace Sys2Proof.Machine

open Sys2Proof

/-- R118, in order: refuse after a fault; fetch and increment; then the active instance's handler, or the idle decode. -/
def step (s : State) : Host.Outcome State Fault Refusal :=
  match s.fault with
  | some info => .refused (.afterFatal info)
  | none =>
    match fetchStage s with
    | .error faulted => .next faulted
    | .ok fetched =>
      match fetched.inst with
      | some i => exec i fetched
      | none => .next fetched.dispatchNext

/-- `s` with the instruction whose bits are the low `nbits` of `w` stored at PC and brought to the call that runs its
effect cycle: see `State.placeInstruction` and log 15. -/
def State.withFetchWord (s : State) (nbits w : Nat) : State :=
  s.placeInstruction (tableBytes nbits w)

end Sys2Proof.Machine
end

