-- ==== Sys2Proof/Safety.lean ====
section
/-! DEFINITION. What counts as a safe run, in the terms statements use: the launch premises of 70_reset_and_hazards.md
R251, the invariants of the engine and of the devices, runs of `n` calls (R249), and the two comparisons of states that
leave out the latches no claim may read (10_state.md R25, R26). -/

namespace Sys2Proof.Machine

open Sys2Proof

/-! ## Premises (70_reset_and_hazards.md R251) -/

/-- `NoFault`. -/
abbrev State.noFault (s : State) : Prop :=
  s.fault = none

/-- `ColdStart`. -/
abbrev State.coldStart (s : State) : Prop :=
  s.inst = none ∧ s.cycle = 0

/-- A mapping's range fits its device (20_memory.md R53); one with `start > stop` contains no address. -/
def State.mappingFits (s : State) (m : Mapping) : Bool :=
  !decide (m.start ≤ m.stop) || decide ((m.stop - m.start).toNat + 1 ≤ (s.device m.device).capacity)

/-- `WellFormedConfig`: every mapping's range fits its device (20_memory.md R53). -/
def State.wellFormedConfig (s : State) : Bool :=
  s.config.mappings.all s.mappingFits

/-- `ProgramAt(Q, bytes)`: each byte stands at its address in a device that a mapping reaches. -/
def State.programAt (s : State) : Addr → List Byte → Prop
  | _, [] => True
  | q, b :: rest => (resolve s.config.mappings q).isSome ∧ s.busRead q = .ok b ∧ s.programAt (q + 1) rest

/-- Step 2 of a call that fetches at `pc` raises nothing (40_fetch_dispatch.md R112). -/
abbrev State.mayAdvance (s : State) (pc : Addr) : Prop :=
  ¬ (pc = 0xFFFF ∧ s.config.pcOverflow = PcOverflow.fault)

/-! ## Invariants -/

/-- The instance's scratch and the cycle index agree: the index is one its class declares (10_state.md R35), and a field
is set exactly when a cycle before this one has written it (R34). -/
def readyAt (i : Instr) (cycle : Nat) : Bool :=
  let latched (lo hi : Option Byte) : Bool :=
    decide (cycle ≤ 3) && (lo.isSome == decide (1 ≤ cycle)) && (hi.isSome == decide (2 ≤ cycle))
  match i with
  | .ldaImm value => decide (cycle ≤ 1) && (value.isSome == decide (1 ≤ cycle))
  | .adcAbs lo hi => latched lo hi
  | .staAbs lo hi => latched lo hi
  | .clc => decide (cycle ≤ 1)
  | .cli => decide (cycle ≤ 1)
  | .cld => decide (cycle ≤ 1)
  | .clv => decide (cycle ≤ 1)
  | .ldaAbs lo hi => latched lo hi

/-- The engine's own state is one a run can reach: no instance and cycle 0 (R35), or an instance of a configured row
with its scratch ready. -/
def State.engineWf (s : State) : Bool :=
  match s.inst with
  | none => decide (s.cycle = 0)
  | some i => i.configured s.config.ext && readyAt i s.cycle

/-- Every device's contents are in canonical form and within its capacity. -/
def State.memoryWf (s : State) : Bool :=
  s.devices.all Device.wf

/-- Ownership (20_memory.md R57, R58): every mapping names a device the block has, and no two name the same one. -/
def State.ownsDevices (s : State) : Bool :=
  decide ((s.config.mappings.map Mapping.device).Nodup) &&
    s.config.mappings.all (fun m => decide (m.device < s.devices.length))

/-! ## Runs (R249) -/

/-- `n` calls of `advance`. -/
def runFor (n : Nat) (s : State) : Host.Outcome State Fault Refusal :=
  Host.Core.run Sys2Proof.core n s

/-- Apply a view of the state to an outcome. -/
def viewOutcome (f : State → State) : Host.Outcome State Fault Refusal → Host.Outcome State Fault Refusal
  | .next s => .next (f s)
  | .fault r => .fault r
  | .refused r => .refused r

/-- The next state, if there is one. -/
def nextState : Host.Outcome State Fault Refusal → Option State
  | .next s => some s
  | .fault _ => none
  | .refused _ => none

/-! ## Views that leave fields out -/

/-- Without ADH and ADL, on which no claim may depend (10_state.md R26, 92_eei_decisions.md D6). -/
def State.hideAddressLatches (s : State) : State :=
  { s with adh := 0, adl := 0 }

/-- Without ADH, ADL and DL; DL is open right after ABS cycle 2 (R25, D5, 93_implementation_defined.md I10). -/
def State.hideLatches (s : State) : State :=
  { s with adh := 0, adl := 0, dl := 0 }

/-- Without P. -/
def State.hideP (s : State) : State :=
  { s with p := 0 }

/-- Equal in every field a claim may read, DL included. -/
def sameButAddressLatches (t u : State) : Prop :=
  t.hideAddressLatches = u.hideAddressLatches

/-- Equal in every field a claim may read right after ABS cycle 2. -/
def sameButLatches (t u : State) : Prop :=
  t.hideLatches = u.hideLatches

/-! ## Tables the statements use -/

/-- The bits of P a row writes: opcode_table.json, `flags_written`; 10_state.md R27. -/
def flagsWritten : Instr → Byte
  | .ldaImm _ => 0x82
  | .adcAbs _ _ => 0xC3
  | .staAbs _ _ => 0x00
  | .clc => 0x01
  | .cli => 0x04
  | .cld => 0x08
  | .clv => 0x40
  | .ldaAbs _ _ => 0x82

/-- The two handler branches that correct PC: implied cycle 0 and absolute cycle 2 (40_fetch_dispatch.md R120). -/
def correctsPc (i : Instr) (cycle : Nat) : Bool :=
  match i.mode with
  | .implied => decide (cycle = 0)
  | .immediate => false
  | .absolute => decide (cycle = 2)

end Sys2Proof.Machine
end

