-- ==== Sys2Proof/Certificates/Slice0/Obligations.lean ====
section
/-! DEFINITION. The statements for the provers. Each formalises the rules its docstring names. No statement depends on
ADH or ADL, nor on DL right after an absolute instance's cycle 2 (10_state.md R25, R26): next states are compared by
`sameButAddressLatches` and `sameButLatches`, and runs through `State.hideLatches`. -/

open Sys2Proof Sys2Proof.Machine

/-! ## Shapes shared by several statements -/

/-- What 42_immediate.md R160 and 43_absolute.md R185 say of P after a load of `v`: Z and N from `v`, the rest kept. -/
def Sys2Proof.Machine.loadFlagsHold (v before after : Byte) : Prop :=
  testFlag .zero after = decide (v.toNat = 0) ∧ testFlag .negative after = decide (128 ≤ v.toNat) ∧
  after &&& 0x7D = before &&& 0x7D

/-- What 43_absolute.md R183 says of add-with-carry, over the natural numbers. -/
def Sys2Proof.Machine.adcLawHolds (a m before result after : Byte) : Prop :=
  let total := a.toNat + m.toNat + (if testFlag .carry before then 1 else 0)
  result.toNat = total % 256 ∧ testFlag .carry after = decide (255 < total) ∧
  testFlag .zero after = decide (total % 256 = 0) ∧ testFlag .negative after = decide (128 ≤ total % 256) ∧
  testFlag .overflow after = (decide (128 ≤ a.toNat) != decide (128 ≤ total % 256)) ∧
  after &&& 0x3C = before &&& 0x3C

/-- 41_implied.md R140 with R141 to R144's encoding, for one row: its opcode, the mask it clears, and the parameter
that makes it present. -/
def Sys2Proof.Machine.impliedRule (i : Instr) (op mask : Byte) (present : ExtOpcodes → Bool) : Prop :=
  encode i = some [op] ∧ (∀ ext, decodeOpcode ext op = if present ext then some i else none) ∧
  ∀ s : State,
    (s.cycle = 0 → ∃ t, exec i s = .next t ∧
      sameButAddressLatches t { s with pc := s.pc - 1, inst := some i, cycle := 1 }) ∧
    (s.cycle = 1 → ∃ t, exec i s = .next t ∧
      sameButAddressLatches t
        { s with p := s.p &&& ~~~mask, inst := decodeOpcode s.config.ext s.dl, cycle := 0 }) ∧
    (2 ≤ s.cycle → ∃ t, exec i s = .next t ∧
      sameButAddressLatches t { s with fault := some (.cycleContractViolation op s.cycle s.pc s.dl) })

/-- The encoding of one absolute row: its opcode, then the low and the high address byte, and the parameter that makes
it present. -/
def Sys2Proof.Machine.absoluteEncodingRule (make : Option Byte → Option Byte → Instr) (op : Byte)
    (present : ExtOpcodes → Bool) : Prop :=
  (∀ lo hi : Byte, encode (make (some lo) (some hi)) = some [op, lo, hi]) ∧
  ∀ ext, decodeOpcode ext op = if present ext then some (make none none) else none

/-- 43_absolute.md R180 without cycle 2, for one row: the latching cycles, the filler and the undeclared ones. -/
def Sys2Proof.Machine.absoluteLatchRule (make : Option Byte → Option Byte → Instr) (op : Byte) : Prop :=
  ∀ (lo hi : Option Byte) (s : State),
    (s.cycle = 0 → ∃ t, exec (make lo hi) s = .next t ∧
      sameButAddressLatches t { s with inst := some (make (some s.dl) hi), cycle := 1 }) ∧
    (s.cycle = 1 → ∃ t, exec (make lo hi) s = .next t ∧
      sameButAddressLatches t { s with inst := some (make lo (some s.dl)), cycle := 2 }) ∧
    (s.cycle = 3 → ∃ t, exec (make lo hi) s = .next t ∧
      sameButAddressLatches t { s with inst := decodeOpcode s.config.ext s.dl, cycle := 0 }) ∧
    (4 ≤ s.cycle → ∃ t, exec (make lo hi) s = .next t ∧
      sameButAddressLatches t { s with fault := some (.cycleContractViolation op s.cycle s.pc s.dl) })

/-! ## Encoding and decoding -/

/-- 30_encoding.md R93 and R94: the dispatch table, one clause a row and one for every byte outside it. -/
def Obligations.DispatchTableHasTheseRows : Prop :=
  ∀ ext : ExtOpcodes,
    decodeOpcode ext 0xA9 = some (.ldaImm none) ∧
    decodeOpcode ext 0x6D = some (.adcAbs none none) ∧
    decodeOpcode ext 0x8D = some (.staAbs none none) ∧
    decodeOpcode ext 0x18 = (if ext.clc then some .clc else none) ∧
    decodeOpcode ext 0x58 = (if ext.cli then some .cli else none) ∧
    decodeOpcode ext 0xD8 = (if ext.cld then some .cld else none) ∧
    decodeOpcode ext 0xB8 = (if ext.clv then some .clv else none) ∧
    decodeOpcode ext 0xAD = (if ext.ldaAbs then some (.ldaAbs none none) else none) ∧
    ∀ b : Byte, b ∉ [0xA9, 0x6D, 0x8D, 0x18, 0x58, 0xD8, 0xB8, 0xAD] → decodeOpcode ext b = none

/-- 30_encoding.md R96. -/
def Obligations.OpcodeFFIsNeverRecognized : Prop :=
  ∀ ext : ExtOpcodes, decodeOpcode ext 0xFF = none

/-- The counts of 30_encoding.md R95: 253 unrecognized bytes with the base rows only, 248 with all five ext rows. -/
def Obligations.UnrecognizedByteCounts : Prop :=
  ((List.range 256).filter fun n => (decodeOpcode ExtOpcodes.empty (BitVec.ofNat 8 n)).isNone).length = 253 ∧
  ((List.range 256).filter fun n => (decodeOpcode ExtOpcodes.all (BitVec.ofNat 8 n)).isNone).length = 248

/-- Words written out from 30_encoding.md R90 to R93 decode to the instructions they stand for, one of each class,
operands low byte first. -/
def Obligations.WrittenOutWordsDecode : Prop :=
  decode ExtOpcodes.all [0xA9, 0x05] = .ok (.ldaImm (some 0x05), []) ∧
  decode ExtOpcodes.all [0x6D, 0x10, 0x00] = .ok (.adcAbs (some 0x10) (some 0x00), []) ∧
  decode ExtOpcodes.all [0x8D, 0x00, 0x20] = .ok (.staAbs (some 0x00) (some 0x20), []) ∧
  decode ExtOpcodes.all [0xAD, 0x30, 0x00, 0x18] = .ok (.ldaAbs (some 0x30) (some 0x00), [0x18]) ∧
  decode ExtOpcodes.all [0x18] = .ok (.clc, []) ∧
  decode ExtOpcodes.empty [0x18] = .error (.unrecognized 0x18)

/-- Every well-formed instruction, with every operand, decodes from its own encoding, and the bytes after it are left. -/
def Obligations.DecodeOfEncodeIsTheInstruction : Prop :=
  ∀ (ext : ExtOpcodes) (i : Instr) (rest : List Byte), i.wf ext = true →
    ∃ bytes, encode i = some bytes ∧ bytes.length = i.mode.length ∧ decode ext (bytes ++ rest) = .ok (i, rest)

/-- Whatever decodes is a well-formed instruction, and the bytes it was read from are its encoding: one word, one
meaning. -/
def Obligations.DecodedBytesAreTheEncoding : Prop :=
  ∀ (ext : ExtOpcodes) (bytes rest : List Byte) (i : Instr), decode ext bytes = .ok (i, rest) →
    i.wf ext = true ∧ ∃ word, encode i = some word ∧ bytes = word ++ rest

/-! ## `advance` -/

/-- One step, clause by clause. A faulted state is refused: 40_fetch_dispatch.md R110, 60_exceptions.md R213. The fetch,
the increment and the idle decode: R111, R112, R116, in R118's order; where an instance is active the step is `exec` of
it, at the state the fetch and the increment leave (R113). What a raise leaves: R118, 60_exceptions.md R212. The refusal
and a raise's aftermath are the spec's decision D11 (log 7), the traffic field is the model's (log 14). -/
def Obligations.StepIsFetchIncrementThenHandler : Prop :=
  ∀ s : State,
    (∀ info, s.fault = some info → step s = .refused (.afterFatal info)) ∧
    (s.noFault →
      (∀ info, s.busRead s.pc = .error info → ∃ t, step s = .next t ∧
        sameButAddressLatches t { s with fault := some info, traffic := [] }) ∧
      (∀ b, s.busRead s.pc = .ok b →
        (s.pc = 0xFFFF → s.config.pcOverflow = .fault → ∃ t, step s = .next t ∧
          sameButAddressLatches t { s with dl := b, fault := some (.pcOverflow s.pc), traffic := [.read s.pc b] }) ∧
        (s.mayAdvance s.pc →
          (∀ i, s.inst = some i → ∃ u, step s = exec i u ∧
            sameButAddressLatches u { s with dl := b, pc := s.pc + 1, traffic := [.read s.pc b] }) ∧
          (s.inst = none → ∃ t, step s = .next t ∧
            sameButAddressLatches t
              { s with dl := b, pc := s.pc + 1, inst := decodeOpcode s.config.ext b, cycle := 0,
                       traffic := [.read s.pc b] }))))

/-- 40_fetch_dispatch.md R114 to R117, as R126's derived table gathers them: what is active after a call that raised
nothing, and what the call returns. The byte decoded is the one this call fetched at PC. -/
def Obligations.ResultsByCase : Prop :=
  ∀ s t : State, step s = .next t → t.noFault →
    t.result = .running t.inst.isSome ∧
    (∀ i, s.inst = some i → s.cycle + 1 < i.mode.cycles →
      (∃ i', t.inst = some i' ∧ i'.opcode = i.opcode) ∧ t.cycle = s.cycle + 1 ∧ t.result = .running true) ∧
    (∀ i, s.inst = some i → s.cycle + 1 = i.mode.cycles →
      s.busRead s.pc = .ok t.dl ∧ t.inst = decodeOpcode s.config.ext t.dl ∧ t.cycle = 0) ∧
    (s.inst = none →
      s.busRead s.pc = .ok t.dl ∧ t.inst = decodeOpcode s.config.ext t.dl ∧ t.cycle = 0)

/-- 60_exceptions.md R213, the spec's decision D11 (log 7): a faulted state has no step, so no step clears `fault`, and a
run past it is refused. -/
def Obligations.FaultedStateHasNoStep : Prop :=
  ∀ (s : State) (info : FaultInfo) (n : Nat), s.fault = some info → runFor (n + 1) s = .refused (.afterFatal info)

/-- 40_fetch_dispatch.md R119, for one call that starts with no instance active. No register, flag or device changes but
DL and PC; the traffic field is the model's record of the call (log 14). -/
def Obligations.UnrecognizedByteCostsOneCall : Prop :=
  ∀ (s : State) (b : Byte), s.noFault → s.inst = none → s.busRead s.pc = .ok b → s.mayAdvance s.pc →
    decodeOpcode s.config.ext b = none →
    ∃ t, step s = .next t ∧ t.result = .running false ∧
      sameButAddressLatches t
        { s with dl := b, pc := s.pc + 1, inst := none, cycle := 0, traffic := [.read s.pc b] }

/-- 40_fetch_dispatch.md R119's last sentences: a stream with no recognized opcode, under `wrap`, makes every call
return `Running(false)` while PC advances by one a call, without end. -/
def Obligations.UnrecognizedStreamRunsOn : Prop :=
  ∀ (n : Nat) (s : State), s.noFault → s.inst = none → s.config.pcOverflow = .wrap →
    (∀ address, ∃ b, s.busRead address = .ok b ∧ decodeOpcode s.config.ext b = none) →
    ∃ t, runFor (n + 1) s = .next t ∧ t.result = .running false ∧ t.pc = s.pc + BitVec.ofNat 16 (n + 1) ∧
      t.inst = none ∧ t.cycle = 0 ∧ t.devices = s.devices ∧
      t.a = s.a ∧ t.x = s.x ∧ t.y = s.y ∧ t.sp = s.sp ∧ t.p = s.p

/-- 40_fetch_dispatch.md R122 and R123: from a cold start at Q, over the bytes of a well-formed instruction, the first
`length` calls make exactly that instruction the active instance, every operand latched, with PC at Q + length and
nothing else changed but DL and the model's traffic field (log 14); the calls after run its handler
(`StepIsFetchIncrementThenHandler`). -/
def Obligations.ConsumedBytesBecomeTheInstruction : Prop :=
  ∀ (s : State) (i : Instr) (bytes : List Byte), s.noFault → s.coldStart → i.wf s.config.ext = true →
    encode i = some bytes → s.programAt s.pc bytes →
    (∀ k, k < bytes.length → s.mayAdvance (s.pc + BitVec.ofNat 16 k)) →
    ∃ t, runFor i.mode.length s = .next t ∧
      sameButAddressLatches t
        { s with pc := s.pc + BitVec.ofNat 16 i.mode.length, inst := some i, cycle := i.mode.length - 1,
                 dl := t.dl, traffic := t.traffic }

/-- Derived, as the spec marks them, from 40_fetch_dispatch.md R112, R120 and R127: a call that raises nothing leaves PC
one further, unless its handler branch is one of the two that correct, implied cycle 0 and absolute cycle 2, and then
PC is as before. -/
def Obligations.PcMovesByOneUnlessCorrected : Prop :=
  ∀ s t : State, step s = .next t → t.noFault →
    t.pc = (match s.inst with
      | some i => if correctsPc i s.cycle then s.pc else s.pc + 1
      | none => s.pc + 1)

/-- 60_exceptions.md R212 and R211, the spec's decision D11 (log 7): what a call that raised returns, records and has
left, by the fault it raised. `DeviceOffsetOutOfRange` (20_memory.md R53, decision D9, log 16) records the address
accessed, PC of the fetch or the effective address of cycle 2's access, with the offset and the device it resolves to.
Nothing is said of DL where cycle 2's access raised (10_state.md R25). The traffic field is the model's (log 14). -/
def Obligations.RaiseKeepsWhatCameBefore : Prop :=
  ∀ (s t : State) (info : FaultInfo), step s = .next t → t.fault = some info →
    t.result = .fatal info ∧
    match info with
    | .cycleContractViolation op cycle pc dl =>
      ∃ i b, s.inst = some i ∧ i.mode.cycles ≤ s.cycle ∧ op = i.opcode ∧ cycle = s.cycle ∧ pc = s.pc + 1 ∧ dl = b ∧
        s.busRead s.pc = .ok b ∧
        sameButAddressLatches t
          { s with dl := b, pc := s.pc + 1, traffic := [.read s.pc b], fault := some info }
    | .deviceOffsetOutOfRange address offset device =>
      (∃ m, resolve s.config.mappings address = some m ∧ offset = address - m.start ∧ device = m.device ∧
        (s.device m.device).capacity ≤ offset.toNat) ∧
      ((address = s.pc ∧ sameButAddressLatches t { s with traffic := [], fault := some info }) ∨
        (∃ lo hi b, s.inst ∈ [some (.adcAbs (some lo) (some hi)), some (.staAbs (some lo) (some hi)),
            some (.ldaAbs (some lo) (some hi))] ∧
          address = effectiveAddress lo hi ∧ s.cycle = 2 ∧ s.busRead s.pc = .ok b ∧
          sameButLatches t { s with traffic := [.read s.pc b], fault := some info }))
    | .pcOverflow pc =>
      s.pc = 0xFFFF ∧ pc = 0xFFFF ∧ s.config.pcOverflow = .fault ∧
      ∃ b, s.busRead s.pc = .ok b ∧
        sameButAddressLatches t { s with dl := b, traffic := [.read s.pc b], fault := some info }

/-- 20_memory.md R68: a call makes one fetch read at PC and then at most one handler access, a read or a write, in cycle
2 of an absolute instance; where the fetch itself raises, none is completed. Traffic is the model's record: log 14. -/
def Obligations.OneFetchThenAtMostOneAccess : Prop :=
  ∀ s t : State, step s = .next t →
    (∃ info, s.busRead s.pc = .error info ∧ t.traffic = []) ∨
    (∃ b, s.busRead s.pc = .ok b ∧
      (t.traffic = [.read s.pc b] ∨
        ∃ lo hi, s.cycle = 2 ∧
          (((s.inst = some (.adcAbs (some lo) (some hi)) ∨ s.inst = some (.ldaAbs (some lo) (some hi))) ∧
              ∃ v, t.traffic = [.read s.pc b, .read (effectiveAddress lo hi) v]) ∨
            (s.inst = some (.staAbs (some lo) (some hi)) ∧
              t.traffic = [.read s.pc b, .write (effectiveAddress lo hi) s.a]))))

/-! ## The instructions -/

/-- 41_implied.md R141 to R144 with the class contract R140: encodings and cycles 0 and 1 are the rules' own; the record of
an undeclared cycle, and what then stays, are 60_exceptions.md R211 and R212, the spec's decision D11 (log 7). The rows'
bytes and flags are the 6502's, as the spec marks them (log 17). -/
def Obligations.ClearFlagInstructionsFollowTheirRules : Prop :=
  impliedRule .clc 0x18 0x01 (fun ext => ext.clc) ∧ impliedRule .cli 0x58 0x04 (fun ext => ext.cli) ∧
  impliedRule .cld 0xD8 0x08 (fun ext => ext.cld) ∧ impliedRule .clv 0xB8 0x40 (fun ext => ext.clv)

/-- 42_immediate.md R161 with the class contract R160: the encoding and cycles 0 and 1 are the rules' own; the record of an
undeclared cycle, and what then stays, are 60_exceptions.md R211 and R212, the spec's decision D11 (log 7). An unset
value at cycle 1 is `UnsetScratchIsTheOnlyStop`'s. -/
def Obligations.LdaImmediateFollowsItsRule : Prop :=
  (∀ imm8 : Byte, encode (.ldaImm (some imm8)) = some [0xA9, imm8]) ∧
  ∀ s : State,
    (∀ value, s.cycle = 0 → ∃ t, exec (.ldaImm value) s = .next t ∧
      sameButAddressLatches t { s with inst := some (.ldaImm (some s.dl)), cycle := 1 }) ∧
    (∀ v, s.cycle = 1 → ∃ t, exec (.ldaImm (some v)) s = .next t ∧ loadFlagsHold v s.p t.p ∧
      sameButAddressLatches t
        { s with a := v, p := t.p, inst := decodeOpcode s.config.ext s.dl, cycle := 0 }) ∧
    (∀ value, 2 ≤ s.cycle → ∃ t, exec (.ldaImm value) s = .next t ∧
      sameButAddressLatches t { s with fault := some (.cycleContractViolation 0xA9 s.cycle s.pc s.dl) })

/-- 43_absolute.md R180, its cycles but 2, for the three rows; the record of an undeclared cycle, and what then stays, are
60_exceptions.md R211 and R212, the spec's decision D11 (log 7). -/
def Obligations.AbsoluteCyclesLatchAndFill : Prop :=
  absoluteLatchRule .adcAbs 0x6D ∧ absoluteLatchRule .staAbs 0x8D ∧ absoluteLatchRule .ldaAbs 0xAD

/-- 43_absolute.md R181, 30_encoding.md R92. -/
def Obligations.EffectiveAddressIsHighThenLow : Prop :=
  ∀ lo hi : Byte, (effectiveAddress lo hi).toNat = hi.toNat * 256 + lo.toNat

/-- 43_absolute.md R182, R183, R186 and R187: cycle 2 of ADC abs, whatever P holds, DECIMAL_MODE included. What the raise
of its access leaves is 60_exceptions.md R212, the spec's decision D11 (log 7); the traffic field is the model's
(log 14). -/
def Obligations.AdcAddsWithCarryAndTheAsBuiltOverflow : Prop :=
  absoluteEncodingRule .adcAbs 0x6D (fun _ => true) ∧
  ∀ (lo hi : Byte) (s : State), s.cycle = 2 →
    (∀ m, s.busRead (effectiveAddress lo hi) = .ok m →
      ∃ t, exec (.adcAbs (some lo) (some hi)) s = .next t ∧ adcLawHolds s.a m s.p t.a t.p ∧
        sameButLatches t
          { s with a := t.a, p := t.p, pc := s.pc - 1, inst := some (.adcAbs (some lo) (some hi)), cycle := 3,
                   traffic := s.traffic ++ [.read (effectiveAddress lo hi) m] }) ∧
    (∀ info, s.busRead (effectiveAddress lo hi) = .error info →
      ∃ t, exec (.adcAbs (some lo) (some hi)) s = .next t ∧
        sameButLatches t { s with pc := s.pc - 1, fault := some info })

/-- 43_absolute.md R185: cycle 2 of LDA abs. Its byte is the 6502's and its writing Z and N is the spec's decision D14
(log 17). What the raise of its access leaves is 60_exceptions.md R212, decision D11 (log 7); the traffic field is the
model's (log 14). -/
def Obligations.LdaAbsoluteLoadsAndSetsZeroAndNegative : Prop :=
  absoluteEncodingRule .ldaAbs 0xAD (fun ext => ext.ldaAbs) ∧
  ∀ (lo hi : Byte) (s : State), s.cycle = 2 →
    (∀ m, s.busRead (effectiveAddress lo hi) = .ok m →
      ∃ t, exec (.ldaAbs (some lo) (some hi)) s = .next t ∧ loadFlagsHold m s.p t.p ∧
        sameButLatches t
          { s with a := m, p := t.p, pc := s.pc - 1, inst := some (.ldaAbs (some lo) (some hi)), cycle := 3,
                   traffic := s.traffic ++ [.read (effectiveAddress lo hi) m] }) ∧
    (∀ info, s.busRead (effectiveAddress lo hi) = .error info →
      ∃ t, exec (.ldaAbs (some lo) (some hi)) s = .next t ∧
        sameButLatches t { s with pc := s.pc - 1, fault := some info })

/-- 43_absolute.md R184: cycle 2 of STA abs, by what the address reaches: nothing, a read-only device, a read/write
device (where the byte then reads back, the devices' contents being canonical, and every other byte reads as before), or
an offset beyond the device. That offset's raise is 20_memory.md R53, the spec's decision D9 (log 16), and what it
leaves 60_exceptions.md R212, decision D11 (log 7). Which addresses share a byte is the model's `storage` (log 12); the
traffic field is the model's (log 14). -/
def Obligations.StaStoresTheAccumulator : Prop :=
  absoluteEncodingRule .staAbs 0x8D (fun _ => true) ∧
  ∀ (lo hi : Byte) (s : State), s.cycle = 2 →
    (resolve s.config.mappings (effectiveAddress lo hi) = none →
      ∃ t, exec (.staAbs (some lo) (some hi)) s = .next t ∧
        sameButLatches t
          { s with pc := s.pc - 1, inst := some (.staAbs (some lo) (some hi)), cycle := 3,
                   traffic := s.traffic ++ [.write (effectiveAddress lo hi) s.a] }) ∧
    (∀ m, resolve s.config.mappings (effectiveAddress lo hi) = some m →
      (effectiveAddress lo hi - m.start).toNat < (s.device m.device).capacity →
      ∃ t, exec (.staAbs (some lo) (some hi)) s = .next t ∧
        sameButLatches t
          { s with pc := s.pc - 1, inst := some (.staAbs (some lo) (some hi)), cycle := 3, devices := t.devices,
                   traffic := s.traffic ++ [.write (effectiveAddress lo hi) s.a] } ∧
        ((s.device m.device).readOnly = true → t.devices = s.devices) ∧
        ((s.device m.device).readOnly = false → s.memoryWf = true →
          t.busRead (effectiveAddress lo hi) = .ok s.a) ∧
        ∀ address, s.storage address ≠ s.storage (effectiveAddress lo hi) → t.busRead address = s.busRead address) ∧
    (∀ m, resolve s.config.mappings (effectiveAddress lo hi) = some m →
      (s.device m.device).capacity ≤ (effectiveAddress lo hi - m.start).toNat →
      ∃ t, exec (.staAbs (some lo) (some hi)) s = .next t ∧
        sameButLatches t
          { s with pc := s.pc - 1,
                   fault := some (.deviceOffsetOutOfRange (effectiveAddress lo hi) (effectiveAddress lo hi - m.start)
                     m.device) })

/-- 10_state.md R34 with 92_eei_decisions.md D16, which lets a model fault on a read of an unset scratch field: this
one does (log 10), there only, and `exec` never refuses. -/
def Obligations.UnsetScratchIsTheOnlyStop : Prop :=
  ∀ (i : Instr) (s : State),
    (∀ r : Fault, exec i s = .fault r ↔
      r = .unsetScratch i.opcode s.cycle ∧ i.latched = false ∧ s.cycle = i.mode.effectCycle) ∧
    ∀ r : Refusal, exec i s ≠ .refused r

/-- The frame of every row's every cycle: X, Y, SP and the configuration are kept; A changes only in the effect cycle
of the loads and the add; P only in the effect cycle and only in the row's bits; the fault record only by a raise, of an
undeclared cycle or of cycle 2's access; and no byte of any device changes but the one cycle 2 of STA abs stores. Which
addresses share a byte is the model's `storage` (log 12); which bits a row writes is `flagsWritten`, for the flag clears
and LDA abs the 6502's as the spec marks it (log 17). -/
def Obligations.InstructionFrames : Prop :=
  ∀ (i : Instr) (s t : State), exec i s = .next t →
    t.x = s.x ∧ t.y = s.y ∧ t.sp = s.sp ∧ t.config = s.config ∧
    (t.a = s.a ∨ (s.cycle = i.mode.effectCycle ∧ i.opcode ∈ [0xA9, 0x6D, 0xAD])) ∧
    (t.p = s.p ∨ (s.cycle = i.mode.effectCycle ∧ t.p &&& ~~~flagsWritten i = s.p &&& ~~~flagsWritten i)) ∧
    (t.fault = s.fault ∨
      (t.fault.isSome = true ∧ (i.mode.cycles ≤ s.cycle ∨ (i.mode = .absolute ∧ s.cycle = 2)))) ∧
    (∀ lo hi, i = .staAbs (some lo) (some hi) → s.cycle = 2 →
      ∀ address, s.storage address ≠ s.storage (effectiveAddress lo hi) → t.busRead address = s.busRead address) ∧
    ((i.opcode ≠ 0x8D ∨ s.cycle ≠ 2) → t.devices = s.devices ∧ ∀ address, t.busRead address = s.busRead address)

/-! ## Whole instances, call by call (40_fetch_dispatch.md R122 to R124) -/

/-- An implied instance just decoded at Q: two calls clear its flag, and the instance decoded next is that of the byte at
Q + 1, with PC at Q + 2. Which flag that is, is 41_implied.md R141 to R144, the 6502's as the spec marks it (log 17).
The traffic field is the model's (log 14). -/
def Obligations.ImpliedInstanceTakesTwoCalls : Prop :=
  ∀ (s : State) (i : Instr) (next : Byte), s.noFault → s.inst = some i → i.mode = .implied → s.cycle = 0 →
    s.busRead s.pc = .ok next → s.mayAdvance s.pc →
    ∃ t, runFor 2 s = .next t ∧
      sameButAddressLatches t
        { s with p := s.p &&& ~~~flagsWritten i, pc := s.pc + 1, dl := next,
                 inst := decodeOpcode s.config.ext next, cycle := 0, traffic := [.read s.pc next] }

/-- An immediate load just decoded at Q: two calls load the byte at Q + 1, and the instance decoded next is that of the
byte at Q + 2, with PC at Q + 3. The traffic field is the model's (log 14). -/
def Obligations.LdaImmediateInstanceTakesTwoCalls : Prop :=
  ∀ (s : State) (v next : Byte), s.noFault → s.inst = some (.ldaImm none) → s.cycle = 0 →
    s.busRead s.pc = .ok v → s.busRead (s.pc + 1) = .ok next → s.mayAdvance s.pc → s.mayAdvance (s.pc + 1) →
    ∃ t, runFor 2 s = .next t ∧ loadFlagsHold v s.p t.p ∧
      sameButAddressLatches t
        { s with a := v, p := t.p, pc := s.pc + 2, dl := next, inst := decodeOpcode s.config.ext next, cycle := 0,
                 traffic := [.read (s.pc + 1) next] }

/-- An ADC abs (43_absolute.md R182, R183) or LDA abs (R185, whose byte and flags are log 17's) just decoded at Q: four
calls take the operand at the address of the bytes at Q + 1 and Q + 2, and the instance decoded next is that of the byte
at Q + 3, with PC at Q + 4. The traffic field is the model's (log 14). -/
def Obligations.AbsoluteReadInstancesTakeFourCalls : Prop :=
  ∀ (s : State) (lo hi m next : Byte), s.noFault → s.cycle = 0 →
    s.busRead s.pc = .ok lo → s.busRead (s.pc + 1) = .ok hi → s.busRead (s.pc + 2) = .ok next →
    s.busRead (effectiveAddress lo hi) = .ok m →
    s.mayAdvance s.pc → s.mayAdvance (s.pc + 1) → s.mayAdvance (s.pc + 2) →
    (s.inst = some (.adcAbs none none) →
      ∃ t, runFor 4 s = .next t ∧ adcLawHolds s.a m s.p t.a t.p ∧
        sameButAddressLatches t
          { s with a := t.a, p := t.p, pc := s.pc + 3, dl := next, inst := decodeOpcode s.config.ext next, cycle := 0,
                   traffic := [.read (s.pc + 2) next] }) ∧
    (s.inst = some (.ldaAbs none none) →
      ∃ t, runFor 4 s = .next t ∧ loadFlagsHold m s.p t.p ∧
        sameButAddressLatches t
          { s with a := m, p := t.p, pc := s.pc + 3, dl := next, inst := decodeOpcode s.config.ext next, cycle := 0,
                   traffic := [.read (s.pc + 2) next] })

/-- 20_memory.md R75 and 70_reset_and_hazards.md R246: an STA abs just decoded at Q, whose target byte is in a
read/write device. Four calls store A, and the instance decoded next is that of the byte at Q + 3 as it is AFTER the
store: of A itself where the target is that byte, and of the old byte where the target is storage of its own. Which
addresses share a byte is the model's `storage` (log 12); the traffic field is the model's (log 14). -/
def Obligations.StoreIsSeenByTheNextOpcodeFetch : Prop :=
  ∀ (s : State) (lo hi old : Byte) (m : Mapping), s.noFault → s.memoryWf = true →
    s.inst = some (.staAbs none none) → s.cycle = 0 →
    s.busRead s.pc = .ok lo → s.busRead (s.pc + 1) = .ok hi → s.busRead (s.pc + 2) = .ok old →
    s.mayAdvance s.pc → s.mayAdvance (s.pc + 1) → s.mayAdvance (s.pc + 2) →
    resolve s.config.mappings (effectiveAddress lo hi) = some m →
    (effectiveAddress lo hi - m.start).toNat < (s.device m.device).capacity →
    (s.device m.device).readOnly = false →
    ∃ t next, runFor 4 s = .next t ∧
      (s.storage (s.pc + 2) = s.storage (effectiveAddress lo hi) → next = s.a) ∧
      (s.storage (s.pc + 2) ≠ s.storage (effectiveAddress lo hi) → next = old) ∧
      sameButAddressLatches t
        { s with devices := t.devices, pc := s.pc + 3, dl := next, inst := decodeOpcode s.config.ext next, cycle := 0,
                 traffic := [.read (s.pc + 2) next] } ∧
      t.busRead (effectiveAddress lo hi) = .ok s.a ∧
      ∀ address, s.storage address ≠ s.storage (effectiveAddress lo hi) → t.busRead address = s.busRead address

/-! ## The status register -/

/-- 10_state.md R28 and R29, with b one of the eight one-bit masks of R27, named here one by one. -/
def Obligations.FlagOperationsTouchOneBit : Prop :=
  (Flag.carry.mask = 0x01 ∧ Flag.zero.mask = 0x02 ∧ Flag.irqDisable.mask = 0x04 ∧ Flag.decimalMode.mask = 0x08 ∧
    Flag.brk.mask = 0x10 ∧ Flag.reserved.mask = 0x20 ∧ Flag.overflow.mask = 0x40 ∧ Flag.negative.mask = 0x80) ∧
  ∀ (f : Flag) (p : Byte),
    (testFlag f p = true ↔ p &&& f.mask ≠ 0) ∧ setFlag f p = p ||| f.mask ∧ clearFlag f p = p &&& ~~~f.mask ∧
    testFlag f (setFlag f p) = true ∧ testFlag f (clearFlag f p) = false ∧
    setFlag f p &&& ~~~f.mask = p &&& ~~~f.mask ∧ clearFlag f p &&& ~~~f.mask = p &&& ~~~f.mask ∧
    ∀ cond, testFlag f (assignFlag f cond p) = cond ∧ assignFlag f cond p &&& ~~~f.mask = p &&& ~~~f.mask

/-- 10_state.md R30 with the "written by" column of R27: P changes only in a handler's effect cycle, and only in the
bits its row writes. Which bit each of CLC, CLI, CLD and CLV writes, and that LDA abs writes Z and N, is
41_implied.md R141 to R144 and 92_eei_decisions.md D14 as log 17 takes them. -/
def Obligations.FlagsChangeOnlyInTheirHandlers : Prop :=
  ∀ s t : State, step s = .next t →
    match s.inst with
    | none => t.p = s.p
    | some i =>
      if s.cycle = i.mode.effectCycle then t.p &&& ~~~flagsWritten i = s.p &&& ~~~flagsWritten i else t.p = s.p

/-- 10_state.md R27: no flag other than C is read by any instruction. Two runs whose launch P agree in C differ in
nothing but P, the latches left out of the comparison (R25, R26). -/
def Obligations.OnlyCarryIsEverRead : Prop :=
  ∀ (n : Nat) (s : State) (p : Byte), testFlag .carry p = testFlag .carry s.p →
    viewOutcome (fun t => t.hideP.hideLatches) (runFor n { s with p := p }) =
      viewOutcome (fun t => t.hideP.hideLatches) (runFor n s)

/-- 60_exceptions.md R215 and 10_state.md R27: B and bit 5 keep their launch values for a whole run. -/
def Obligations.BreakAndBitFiveKeepTheirValues : Prop :=
  ∀ (n : Nat) (s t : State), runFor n s = .next t → t.p &&& 0x30 = s.p &&& 0x30

/-! ## Registers no instruction uses, and the latches -/

/-- 10_state.md R22 and R23, which the spec marks as derived from the table and the instruction rules: X, Y and SP are
neither read nor written. A run from other values of them is the same run with those values in their place, the
latches left out of the comparison (R25, R26). -/
def Obligations.XYAndSpAreNeverUsed : Prop :=
  ∀ (n : Nat) (s : State) (x y sp : Byte),
    viewOutcome State.hideLatches (runFor n { s with x := x, y := y, sp := sp }) =
      viewOutcome (fun t => State.hideLatches { t with x := x, y := y, sp := sp }) (runFor n s)

/-- 10_state.md R25 and R26: no outcome depends on the launch values of ADH, ADL and DL. -/
def Obligations.LatchesDoNotAffectARun : Prop :=
  ∀ (n : Nat) (s u : State), sameButLatches s u →
    viewOutcome State.hideLatches (runFor n s) = viewOutcome State.hideLatches (runFor n u)

/-! ## The bus -/

/-- 20_memory.md R59. -/
def Obligations.ResolveIsFirstMatch : Prop :=
  ∀ (mappings : List Mapping) (address : Addr),
    (∀ m, resolve mappings address = some m ↔
      ∃ before after, mappings = before ++ m :: after ∧ (m.start ≤ address ∧ address ≤ m.stop) ∧
        ∀ m' ∈ before, ¬ (m'.start ≤ address ∧ address ≤ m'.stop)) ∧
    (resolve mappings address = none ↔ ∀ m ∈ mappings, ¬ (m.start ≤ address ∧ address ≤ m.stop))

/-- 20_memory.md R58: a registered mapping goes at the end and has the lowest priority, whatever its range; the device
handed over becomes one of the block's own, and a block in which each device is owned by one mapping stays one. -/
def Obligations.RegisteredMappingIsLast : Prop :=
  (∀ (c : Config) (m : Mapping) (address : Addr),
    (c.register m).mappings = c.mappings ++ [m] ∧
    resolve (c.register m).mappings address =
      match resolve c.mappings address with
      | some m' => some m'
      | none => if m.start ≤ address ∧ address ≤ m.stop then some m else none) ∧
  ∀ (s : State) (r : Registration),
    (s.register r).config = s.config.register { start := r.start, stop := r.stop, device := s.devices.length } ∧
    (s.register r).device s.devices.length = r.device ∧
    (∀ id, id ≠ s.devices.length → (s.register r).device id = s.device id) ∧
    (s.ownsDevices = true → (s.register r).ownsDevices = true) ∧
    s.register r = { s with config := (s.register r).config, devices := (s.register r).devices }

/-- 20_memory.md R60 and R61: an access to an address no mapping contains is open bus; one that a mapping contains is the
owning device's, at the offset. One at or beyond its capacity raises: R53, the spec's decision D9 (log 16), and log 11
where no device has the id. -/
def Obligations.BusAccessesFollowTheDecoder : Prop :=
  ∀ (s : State) (address : Addr) (v : Byte),
    (resolve s.config.mappings address = none → s.busRead address = .ok 0x00 ∧ s.busWrite address v = .ok s) ∧
    (∀ m, resolve s.config.mappings address = some m →
      ((address - m.start).toNat < (s.device m.device).capacity →
        s.busRead address = .ok ((s.device m.device).read (address - m.start)) ∧
        ∃ t, s.busWrite address v = .ok t ∧ t.device m.device = (s.device m.device).write (address - m.start) v ∧
          (∀ id, id ≠ m.device → t.device id = s.device id) ∧ t = { s with devices := t.devices }) ∧
      ((s.device m.device).capacity ≤ (address - m.start).toNat →
        s.busRead address = .error (.deviceOffsetOutOfRange address (address - m.start) m.device) ∧
        s.busWrite address v = .error (.deviceOffsetOutOfRange address (address - m.start) m.device)))

/-- 20_memory.md R54, R55 and R72: a write through the decoder is what the next read of that byte returns; a read-only
device and every other byte read as before. Which addresses share a byte is the model's `storage` (log 12). -/
def Obligations.WriteThenRead : Prop :=
  ∀ (s t : State) (address : Addr) (v : Byte), s.memoryWf = true → s.busWrite address v = .ok t →
    (∀ m, resolve s.config.mappings address = some m → (s.device m.device).readOnly = false →
      ∀ other, s.storage other = s.storage address → t.busRead other = .ok v) ∧
    (∀ m, resolve s.config.mappings address = some m → (s.device m.device).readOnly = true → t = s) ∧
    (∀ other, s.storage other ≠ s.storage address → t.busRead other = s.busRead other)

/-- 20_memory.md R62 and R51, with the split of PC (R66). -/
def Obligations.SplitAccessorsCompose : Prop :=
  ∀ (s : State) (hi lo v : Byte),
    s.readSplit hi lo = s.busRead ((hi.zeroExtend 16 <<< 8) ||| lo.zeroExtend 16) ∧
    s.writeSplit hi lo v = s.busWrite ((hi.zeroExtend 16 <<< 8) ||| lo.zeroExtend 16) v ∧
    ∀ address : Addr, s.readSplit (highByte address) (lowByte address) = s.busRead address

/-- 20_memory.md R53 and R63: under a well-formed configuration no access raises. -/
def Obligations.WellFormedConfigNeverRaises : Prop :=
  ∀ (s : State) (address : Addr) (v : Byte), s.wellFormedConfig = true →
    (∃ b, s.busRead address = .ok b) ∧ ∃ t, s.busWrite address v = .ok t

/-- 70_reset_and_hazards.md R243 and 20_memory.md R54, R57: over a run the configuration, and each device's number,
capacity and kind, never change, and a read-only device's contents never do. -/
def Obligations.ConfigurationIsFixed : Prop :=
  ∀ (n : Nat) (s t : State), runFor n s = .next t →
    t.config = s.config ∧ t.devices.length = s.devices.length ∧
    ∀ id, (t.device id).capacity = (s.device id).capacity ∧ (t.device id).readOnly = (s.device id).readOnly ∧
      ((s.device id).readOnly = true → t.device id = s.device id)

/-- 70_reset_and_hazards.md R243: the mapping list does not change, and device contents change only in STA cycle 2. -/
def Obligations.OnlyStaCycleTwoChangesDevices : Prop :=
  ∀ s t : State, step s = .next t →
    t.config.mappings = s.config.mappings ∧
    (t.devices ≠ s.devices → ∃ lo hi, s.inst = some (.staAbs (some lo) (some hi)) ∧ s.cycle = 2)

/-! ## Invariants and safety -/

/-- 70_reset_and_hazards.md R240: what construction leaves, for every launch state, configuration and devices. -/
def Obligations.ConstructionLeaves : Prop :=
  ∀ (s0 : Launch) (c : Config) (ds : List Device),
    let s := State.construct s0 c ds
    s.inst = none ∧ s.cycle = 0 ∧ s.fault = none ∧ s.a = s0.a ∧ s.x = s0.x ∧ s.y = s0.y ∧ s.sp = s0.sp ∧ s.p = s0.p ∧
    s.pc = s0.pc ∧ s.config = c ∧ s.devices = ds

/-- The state after reset meets the invariants, and its values are the model's choice where the spec leaves them
open: log 2 to log 6. -/
def Obligations.ResetMeetsTheInvariants : Prop :=
  State.reset.engineWf = true ∧ State.reset.memoryWf = true ∧ State.reset.wellFormedConfig = true ∧
  State.reset.ownsDevices = true ∧
  State.reset.noFault ∧ State.reset.coldStart ∧ State.reset.config.pcOverflow = .wrap

/-- 10_state.md R34 and R35: the cycle index stays within its class, and a scratch field is set exactly when a cycle
before this one has written it. Every step keeps that, from every state that has it. -/
def Obligations.StepKeepsEngineWf : Prop :=
  ∀ s t : State, s.engineWf = true → step s = .next t → t.engineWf = true

/-- Every step keeps the devices' canonical form. -/
def Obligations.StepKeepsMemoryWf : Prop :=
  ∀ s t : State, s.memoryWf = true → step s = .next t → t.memoryWf = true

/-- 60_exceptions.md R214: an engine in a state a run reaches never violates the cycle contract, and reads no unset
scratch. -/
def Obligations.CycleContractIsNeverViolated : Prop :=
  ∀ s : State, s.engineWf = true →
    (∀ r, step s ≠ .fault r) ∧
    ∀ t op cycle pc dl, step s = .next t → t.fault ≠ some (.cycleContractViolation op cycle pc dl)

/-- 60_exceptions.md R214 with 70_reset_and_hazards.md R249: with a well-formed configuration and `wrap`, no run of any
length faults, is refused or halts. -/
def Obligations.WellFormedRunsNeverStop : Prop :=
  ∀ (n : Nat) (s : State), s.engineWf = true → s.wellFormedConfig = true → s.config.pcOverflow = .wrap → s.noFault →
    ∃ t, runFor n s = .next t ∧ t.noFault ∧ t.engineWf = true ∧ t.wellFormedConfig = true

/-- The model's placing of a word (log 15): the next step is `exec` of the very instruction decoded, at its effect
cycle, PC one past the byte after it. -/
def Obligations.PlacedWordRunsNext : Prop :=
  ∀ (s : State) (nbits w : Nat) (i : Instr), s.config.ext = ExtOpcodes.all → s.config.pcOverflow = .wrap →
    decodeTableWord nbits w = some i →
    ∃ u, step (s.withFetchWord nbits w) = exec i u ∧ u.cycle = i.mode.effectCycle ∧
      u.pc = s.pc + BitVec.ofNat 16 i.mode.length + 1 ∧
      u.a = s.a ∧ u.x = s.x ∧ u.y = s.y ∧ u.sp = s.sp ∧ u.p = s.p

/-! ## Ownership of devices (20_memory.md R57, R58) -/

/-- 70_reset_and_hazards.md R242 with 20_memory.md R57 and R58: registering on a block that owns no device yet gives the
constructed block whose mappings are the registrations' ranges in their order, the k-th mapping owning the k-th device,
each device by one mapping only. -/
def Obligations.AssemblyRegistersInOrder : Prop :=
  ∀ (s0 : Launch) (ext : ExtOpcodes) (pcOverflow : PcOverflow) (registrations : List Registration),
    let s := State.assemble s0 ext pcOverflow registrations
    s.devices = registrations.map Registration.device ∧
    s.config.mappings.length = registrations.length ∧
    (∀ (k : Nat) (r : Registration), registrations[k]? = some r →
      s.config.mappings[k]? = some ({ start := r.start, stop := r.stop, device := k } : Mapping)) ∧
    s.config.ext = ext ∧ s.config.pcOverflow = pcOverflow ∧ s.ownsDevices = true ∧
    s = State.construct s0 s.config s.devices

/-- 20_memory.md R57 and 70_reset_and_hazards.md R243: every step keeps the devices owned as they are. -/
def Obligations.StepKeepsOwnership : Prop :=
  ∀ s t : State, s.ownsDevices = true → step s = .next t → t.ownsDevices = true

/-- Derived from 20_memory.md R57 to R60: where every device is owned by one mapping, a mapped address shares its byte
with no other address, so that the frames by the model's `storage` (log 12) are frames by address. -/
def Obligations.OwnedByteHasOneAddress : Prop :=
  ∀ (s : State) (address other : Addr), s.ownsDevices = true → (resolve s.config.mappings address).isSome = true →
    (s.storage other = s.storage address ↔ other = address)
end

