-- ==== Sys2Proof/Laws/Memory.lean ====
section
/-! SUPPORT. The laws of device contents: read after write, and the canonical form every operation keeps. -/

namespace Sys2Proof.Machine

open Sys2Proof

theorem Memory.wfFrom_cons_iff {low k : Nat} {v : Byte} {rest : Memory} :
    Memory.wfFrom low ((k, v) :: rest) = true ↔ low ≤ k ∧ v ≠ Memory.unlisted ∧ Memory.wfFrom (k + 1) rest = true := by
  simp [Memory.wfFrom, and_assoc]

theorem Memory.wfFrom_mono {low low' : Nat} {m : Memory} (h : Memory.wfFrom low m = true) (hle : low' ≤ low) :
    Memory.wfFrom low' m = true := by
  cases m with
  | nil => rfl
  | cons c rest =>
    obtain ⟨k, v⟩ := c
    rw [Memory.wfFrom_cons_iff] at h ⊢
    exact ⟨by omega, h.2⟩

/-- Below the first offset the list may hold, every offset is unlisted. -/
theorem Memory.read_below {m : Memory} {low j : Nat} (h : Memory.wfFrom low m = true) (hj : j < low) :
    m.read j = Memory.unlisted := by
  induction m generalizing low with
  | nil => rfl
  | cons c rest ih =>
    obtain ⟨k, v⟩ := c
    rw [Memory.wfFrom_cons_iff] at h
    rw [Memory.read, if_neg (by omega)]
    exact ih h.2.2 (by omega)

theorem Memory.read_cons_other {m : Memory} {k j : Nat} {v : Byte} (h : j ≠ k) :
    (Memory.cons k v m).read j = m.read j := by
  unfold Memory.cons
  split
  · rfl
  · simp [Memory.read, h]

theorem Memory.read_cons_same {m : Memory} {k : Nat} {v : Byte} (h : Memory.wfFrom (k + 1) m = true) :
    (Memory.cons k v m).read k = v := by
  unfold Memory.cons
  split
  · next hv => rw [Memory.read_below h (Nat.lt_succ_self k), hv]
  · simp [Memory.read]

/-- A write leaves every other offset alone, whatever the list's form. -/
theorem Memory.read_write_other (m : Memory) {k j : Nat} {v : Byte} (h : j ≠ k) :
    (m.write k v).read j = m.read j := by
  induction m with
  | nil => exact Memory.read_cons_other h
  | cons c rest ih =>
    obtain ⟨k', w⟩ := c
    rw [Memory.write]
    split
    · exact Memory.read_cons_other h
    · split
      · next hk => rw [Memory.read_cons_other h, Memory.read, if_neg (by omega)]
      · simp only [Memory.read, ih]

/-- A write is what the next read of its offset returns. -/
theorem Memory.read_write_same {m : Memory} {low k : Nat} {v : Byte} (h : Memory.wfFrom low m = true) :
    (m.write k v).read k = v := by
  induction m generalizing low with
  | nil => exact Memory.read_cons_same rfl
  | cons c rest ih =>
    obtain ⟨k', w⟩ := c
    have h' := Memory.wfFrom_cons_iff.mp h
    rw [Memory.write]
    split
    · next hk =>
      exact Memory.read_cons_same (Memory.wfFrom_cons_iff.mpr ⟨by omega, h'.2.1, h'.2.2⟩)
    · split
      · next hk => subst hk; exact Memory.read_cons_same h'.2.2
      · next hk => rw [Memory.read, if_neg hk]; exact ih h'.2.2

theorem Memory.wfFrom_cons_of {low k : Nat} {v : Byte} {rest : Memory} (hle : low ≤ k)
    (h : Memory.wfFrom (k + 1) rest = true) : Memory.wfFrom low (Memory.cons k v rest) = true := by
  unfold Memory.cons
  split
  · exact Memory.wfFrom_mono h (by omega)
  · next hv => exact Memory.wfFrom_cons_iff.mpr ⟨hle, hv, h⟩

theorem Memory.wfFrom_write {m : Memory} {low k : Nat} {v : Byte} (h : Memory.wfFrom low m = true) (hle : low ≤ k) :
    Memory.wfFrom low (m.write k v) = true := by
  induction m generalizing low with
  | nil => exact Memory.wfFrom_cons_of hle rfl
  | cons c rest ih =>
    obtain ⟨k', w⟩ := c
    have h' := Memory.wfFrom_cons_iff.mp h
    rw [Memory.write]
    split
    · exact Memory.wfFrom_cons_of hle (Memory.wfFrom_cons_iff.mpr ⟨by omega, h'.2⟩)
    · split
      · next hk => subst hk; exact Memory.wfFrom_cons_of hle h'.2.2
      · exact Memory.wfFrom_cons_iff.mpr ⟨h'.1, h'.2.1, ih h'.2.2 (by omega)⟩

/-- A write keeps the canonical form. -/
theorem Memory.wf_write {m : Memory} (h : m.wf = true) (k : Nat) (v : Byte) : (m.write k v).wf = true :=
  Memory.wfFrom_write h (Nat.zero_le k)

theorem Memory.mem_cons_bound {m : Memory} {k : Nat} {v : Byte} {c : Host.Cell} (h : c ∈ Memory.cons k v m) :
    c.1 = k ∨ c ∈ m := by
  unfold Memory.cons at h
  split at h
  · exact .inr h
  · rcases List.mem_cons.mp h with rfl | h
    · exact .inl rfl
    · exact .inr h

/-- A write lists no offset but its own that was not listed before. -/
theorem Memory.mem_write_bound {m : Memory} {k : Nat} {v : Byte} {c : Host.Cell} (h : c ∈ m.write k v) :
    c.1 = k ∨ c ∈ m := by
  induction m with
  | nil => exact Memory.mem_cons_bound h
  | cons d rest ih =>
    obtain ⟨k', w⟩ := d
    rw [Memory.write] at h
    split at h
    · exact Memory.mem_cons_bound h
    · split at h
      · exact (Memory.mem_cons_bound h).imp_right (List.mem_cons_of_mem _)
      · rcases List.mem_cons.mp h with rfl | h
        · exact .inr List.mem_cons_self
        · exact (ih h).imp_right (List.mem_cons_of_mem _)

/-- Equal contents are equal lists: the canonical form is canonical. -/
theorem Memory.eq_of_read_eq {m n : Memory} {low : Nat} (hm : Memory.wfFrom low m = true)
    (hn : Memory.wfFrom low n = true) (h : ∀ k, m.read k = n.read k) : m = n := by
  induction m generalizing n low with
  | nil =>
    cases n with
    | nil => rfl
    | cons d rest =>
      obtain ⟨k, v⟩ := d
      have hn' := Memory.wfFrom_cons_iff.mp hn
      have := h k
      simp [Memory.read] at this
      exact absurd this.symm hn'.2.1
  | cons c mrest ih =>
    obtain ⟨k, v⟩ := c
    have hm' := Memory.wfFrom_cons_iff.mp hm
    cases n with
    | nil =>
      have := h k
      simp [Memory.read] at this
      exact absurd this hm'.2.1
    | cons d nrest =>
      obtain ⟨k', v'⟩ := d
      have hn' := Memory.wfFrom_cons_iff.mp hn
      have hk : k = k' := by
        rcases Nat.lt_trichotomy k k' with hlt | heq | hgt
        · have := h k
          rw [Memory.read, if_pos rfl, Memory.read, if_neg (by omega), Memory.read_below hn'.2.2 (by omega)] at this
          exact absurd this hm'.2.1
        · exact heq
        · have := h k'
          rw [Memory.read, if_neg (by omega), Memory.read_below hm'.2.2 (by omega), Memory.read, if_pos rfl] at this
          exact absurd this.symm hn'.2.1
      subst hk
      have hv : v = v' := by
        have := h k
        simpa [Memory.read] using this
      subst hv
      have hrest : mrest = nrest := by
        refine ih hm'.2.2 hn'.2.2 fun j => ?_
        by_cases hj : j = k
        · subst hj
          rw [Memory.read_below hm'.2.2 (by omega), Memory.read_below hn'.2.2 (by omega)]
        · have := h j
          simpa [Memory.read, hj] using this
      rw [hrest]

/-! ## Devices -/

/-- The device port's read after write (20_memory.md R55). -/
theorem Device.read_write_same {d : Device} (hwf : d.wf = true) (hrw : d.readOnly = false) (offset : Addr) (v : Byte) :
    (d.write offset v).read offset = v := by
  have hc : d.contents.wf = true := by
    simp only [Device.wf, Bool.and_eq_true] at hwf
    exact hwf.1
  simp only [Device.write, hrw, Device.read]
  exact Memory.read_write_same hc

/-- A write leaves the other offsets of a device as they were. -/
theorem Device.read_write_other (d : Device) {offset other : Addr} (h : other ≠ offset) (v : Byte) :
    (d.write offset v).read other = d.read other := by
  unfold Device.write Device.read
  split
  · rfl
  · exact Memory.read_write_other _ (fun he => h (BitVec.eq_of_toNat_eq he))

@[simp] theorem Device.write_capacity (d : Device) (offset : Addr) (v : Byte) :
    (d.write offset v).capacity = d.capacity := by
  unfold Device.write; split <;> rfl

@[simp] theorem Device.write_readOnly (d : Device) (offset : Addr) (v : Byte) :
    (d.write offset v).readOnly = d.readOnly := by
  unfold Device.write; split <;> rfl

@[simp] theorem Device.write_accepts (d : Device) (offset other : Addr) (v : Byte) :
    (d.write offset v).accepts other = d.accepts other := by
  simp [Device.accepts]

/-- A read-only device ignores a write (20_memory.md R54). -/
theorem Device.write_readOnly_eq {d : Device} (h : d.readOnly = true) (offset : Addr) (v : Byte) :
    d.write offset v = d := by
  simp [Device.write, h]

/-- An accepted write keeps the device's form. -/
theorem Device.wf_write {d : Device} (hwf : d.wf = true) {offset : Addr} (hacc : d.accepts offset = true) (v : Byte) :
    (d.write offset v).wf = true := by
  simp only [Device.wf, Bool.and_eq_true, List.all_eq_true, decide_eq_true_eq] at hwf ⊢
  simp only [Device.accepts, decide_eq_true_eq] at hacc
  unfold Device.write
  split
  · exact hwf
  · refine ⟨Memory.wf_write hwf.1 _ _, fun c hc => ?_⟩
    rcases Memory.mem_write_bound hc with h | h
    · rw [h]; exact hacc
    · exact hwf.2 c h

end Sys2Proof.Machine
end

