-- ==== Sys2Proof/Laws/State.lean ====
section
/-! SUPPORT. One lemma per field of State and per named update of Machine/Ops.lean, so that no proof unfolds a record
update. -/

namespace Sys2Proof.Machine

open Sys2Proof

variable (s : State)

/-! ## `withDevice` -/

@[simp] theorem State.withDevice_a (id : Nat) (d : Device) : (s.withDevice id d).a = s.a := rfl
@[simp] theorem State.withDevice_x (id : Nat) (d : Device) : (s.withDevice id d).x = s.x := rfl
@[simp] theorem State.withDevice_y (id : Nat) (d : Device) : (s.withDevice id d).y = s.y := rfl
@[simp] theorem State.withDevice_sp (id : Nat) (d : Device) : (s.withDevice id d).sp = s.sp := rfl
@[simp] theorem State.withDevice_p (id : Nat) (d : Device) : (s.withDevice id d).p = s.p := rfl
@[simp] theorem State.withDevice_adh (id : Nat) (d : Device) : (s.withDevice id d).adh = s.adh := rfl
@[simp] theorem State.withDevice_adl (id : Nat) (d : Device) : (s.withDevice id d).adl = s.adl := rfl
@[simp] theorem State.withDevice_dl (id : Nat) (d : Device) : (s.withDevice id d).dl = s.dl := rfl
@[simp] theorem State.withDevice_pc (id : Nat) (d : Device) : (s.withDevice id d).pc = s.pc := rfl
@[simp] theorem State.withDevice_inst (id : Nat) (d : Device) : (s.withDevice id d).inst = s.inst := rfl
@[simp] theorem State.withDevice_cycle (id : Nat) (d : Device) : (s.withDevice id d).cycle = s.cycle := rfl
@[simp] theorem State.withDevice_fault (id : Nat) (d : Device) : (s.withDevice id d).fault = s.fault := rfl
@[simp] theorem State.withDevice_config (id : Nat) (d : Device) : (s.withDevice id d).config = s.config := rfl
@[simp] theorem State.withDevice_devices (id : Nat) (d : Device) : (s.withDevice id d).devices = s.devices.set id d := rfl
@[simp] theorem State.withDevice_traffic (id : Nat) (d : Device) : (s.withDevice id d).traffic = s.traffic := rfl

/-! ## `withA` -/

@[simp] theorem State.withA_a (v : Byte) : (s.withA v).a = v := rfl
@[simp] theorem State.withA_x (v : Byte) : (s.withA v).x = s.x := rfl
@[simp] theorem State.withA_y (v : Byte) : (s.withA v).y = s.y := rfl
@[simp] theorem State.withA_sp (v : Byte) : (s.withA v).sp = s.sp := rfl
@[simp] theorem State.withA_p (v : Byte) : (s.withA v).p = s.p := rfl
@[simp] theorem State.withA_adh (v : Byte) : (s.withA v).adh = s.adh := rfl
@[simp] theorem State.withA_adl (v : Byte) : (s.withA v).adl = s.adl := rfl
@[simp] theorem State.withA_dl (v : Byte) : (s.withA v).dl = s.dl := rfl
@[simp] theorem State.withA_pc (v : Byte) : (s.withA v).pc = s.pc := rfl
@[simp] theorem State.withA_inst (v : Byte) : (s.withA v).inst = s.inst := rfl
@[simp] theorem State.withA_cycle (v : Byte) : (s.withA v).cycle = s.cycle := rfl
@[simp] theorem State.withA_fault (v : Byte) : (s.withA v).fault = s.fault := rfl
@[simp] theorem State.withA_config (v : Byte) : (s.withA v).config = s.config := rfl
@[simp] theorem State.withA_devices (v : Byte) : (s.withA v).devices = s.devices := rfl
@[simp] theorem State.withA_traffic (v : Byte) : (s.withA v).traffic = s.traffic := rfl

/-! ## `withP` -/

@[simp] theorem State.withP_a (v : Byte) : (s.withP v).a = s.a := rfl
@[simp] theorem State.withP_x (v : Byte) : (s.withP v).x = s.x := rfl
@[simp] theorem State.withP_y (v : Byte) : (s.withP v).y = s.y := rfl
@[simp] theorem State.withP_sp (v : Byte) : (s.withP v).sp = s.sp := rfl
@[simp] theorem State.withP_p (v : Byte) : (s.withP v).p = v := rfl
@[simp] theorem State.withP_adh (v : Byte) : (s.withP v).adh = s.adh := rfl
@[simp] theorem State.withP_adl (v : Byte) : (s.withP v).adl = s.adl := rfl
@[simp] theorem State.withP_dl (v : Byte) : (s.withP v).dl = s.dl := rfl
@[simp] theorem State.withP_pc (v : Byte) : (s.withP v).pc = s.pc := rfl
@[simp] theorem State.withP_inst (v : Byte) : (s.withP v).inst = s.inst := rfl
@[simp] theorem State.withP_cycle (v : Byte) : (s.withP v).cycle = s.cycle := rfl
@[simp] theorem State.withP_fault (v : Byte) : (s.withP v).fault = s.fault := rfl
@[simp] theorem State.withP_config (v : Byte) : (s.withP v).config = s.config := rfl
@[simp] theorem State.withP_devices (v : Byte) : (s.withP v).devices = s.devices := rfl
@[simp] theorem State.withP_traffic (v : Byte) : (s.withP v).traffic = s.traffic := rfl

/-! ## `incrementPc` -/

@[simp] theorem State.incrementPc_a : (s.incrementPc).a = s.a := rfl
@[simp] theorem State.incrementPc_x : (s.incrementPc).x = s.x := rfl
@[simp] theorem State.incrementPc_y : (s.incrementPc).y = s.y := rfl
@[simp] theorem State.incrementPc_sp : (s.incrementPc).sp = s.sp := rfl
@[simp] theorem State.incrementPc_p : (s.incrementPc).p = s.p := rfl
@[simp] theorem State.incrementPc_adh : (s.incrementPc).adh = s.adh := rfl
@[simp] theorem State.incrementPc_adl : (s.incrementPc).adl = s.adl := rfl
@[simp] theorem State.incrementPc_dl : (s.incrementPc).dl = s.dl := rfl
@[simp] theorem State.incrementPc_pc : (s.incrementPc).pc = s.pc + 1 := rfl
@[simp] theorem State.incrementPc_inst : (s.incrementPc).inst = s.inst := rfl
@[simp] theorem State.incrementPc_cycle : (s.incrementPc).cycle = s.cycle := rfl
@[simp] theorem State.incrementPc_fault : (s.incrementPc).fault = s.fault := rfl
@[simp] theorem State.incrementPc_config : (s.incrementPc).config = s.config := rfl
@[simp] theorem State.incrementPc_devices : (s.incrementPc).devices = s.devices := rfl
@[simp] theorem State.incrementPc_traffic : (s.incrementPc).traffic = s.traffic := rfl

/-! ## `correctPc` -/

@[simp] theorem State.correctPc_a : (s.correctPc).a = s.a := rfl
@[simp] theorem State.correctPc_x : (s.correctPc).x = s.x := rfl
@[simp] theorem State.correctPc_y : (s.correctPc).y = s.y := rfl
@[simp] theorem State.correctPc_sp : (s.correctPc).sp = s.sp := rfl
@[simp] theorem State.correctPc_p : (s.correctPc).p = s.p := rfl
@[simp] theorem State.correctPc_adh : (s.correctPc).adh = s.adh := rfl
@[simp] theorem State.correctPc_adl : (s.correctPc).adl = s.adl := rfl
@[simp] theorem State.correctPc_dl : (s.correctPc).dl = s.dl := rfl
@[simp] theorem State.correctPc_pc : (s.correctPc).pc = s.pc - 1 := rfl
@[simp] theorem State.correctPc_inst : (s.correctPc).inst = s.inst := rfl
@[simp] theorem State.correctPc_cycle : (s.correctPc).cycle = s.cycle := rfl
@[simp] theorem State.correctPc_fault : (s.correctPc).fault = s.fault := rfl
@[simp] theorem State.correctPc_config : (s.correctPc).config = s.config := rfl
@[simp] theorem State.correctPc_devices : (s.correctPc).devices = s.devices := rfl
@[simp] theorem State.correctPc_traffic : (s.correctPc).traffic = s.traffic := rfl

/-! ## `withTraffic` -/

@[simp] theorem State.withTraffic_a (l : List Transaction) : (s.withTraffic l).a = s.a := rfl
@[simp] theorem State.withTraffic_x (l : List Transaction) : (s.withTraffic l).x = s.x := rfl
@[simp] theorem State.withTraffic_y (l : List Transaction) : (s.withTraffic l).y = s.y := rfl
@[simp] theorem State.withTraffic_sp (l : List Transaction) : (s.withTraffic l).sp = s.sp := rfl
@[simp] theorem State.withTraffic_p (l : List Transaction) : (s.withTraffic l).p = s.p := rfl
@[simp] theorem State.withTraffic_adh (l : List Transaction) : (s.withTraffic l).adh = s.adh := rfl
@[simp] theorem State.withTraffic_adl (l : List Transaction) : (s.withTraffic l).adl = s.adl := rfl
@[simp] theorem State.withTraffic_dl (l : List Transaction) : (s.withTraffic l).dl = s.dl := rfl
@[simp] theorem State.withTraffic_pc (l : List Transaction) : (s.withTraffic l).pc = s.pc := rfl
@[simp] theorem State.withTraffic_inst (l : List Transaction) : (s.withTraffic l).inst = s.inst := rfl
@[simp] theorem State.withTraffic_cycle (l : List Transaction) : (s.withTraffic l).cycle = s.cycle := rfl
@[simp] theorem State.withTraffic_fault (l : List Transaction) : (s.withTraffic l).fault = s.fault := rfl
@[simp] theorem State.withTraffic_config (l : List Transaction) : (s.withTraffic l).config = s.config := rfl
@[simp] theorem State.withTraffic_devices (l : List Transaction) : (s.withTraffic l).devices = s.devices := rfl
@[simp] theorem State.withTraffic_traffic (l : List Transaction) : (s.withTraffic l).traffic = l := rfl

/-! ## `latchFetch` -/

@[simp] theorem State.latchFetch_a (b : Byte) : (s.latchFetch b).a = s.a := rfl
@[simp] theorem State.latchFetch_x (b : Byte) : (s.latchFetch b).x = s.x := rfl
@[simp] theorem State.latchFetch_y (b : Byte) : (s.latchFetch b).y = s.y := rfl
@[simp] theorem State.latchFetch_sp (b : Byte) : (s.latchFetch b).sp = s.sp := rfl
@[simp] theorem State.latchFetch_p (b : Byte) : (s.latchFetch b).p = s.p := rfl
@[simp] theorem State.latchFetch_adh (b : Byte) : (s.latchFetch b).adh = s.adh := rfl
@[simp] theorem State.latchFetch_adl (b : Byte) : (s.latchFetch b).adl = s.adl := rfl
@[simp] theorem State.latchFetch_dl (b : Byte) : (s.latchFetch b).dl = b := rfl
@[simp] theorem State.latchFetch_pc (b : Byte) : (s.latchFetch b).pc = s.pc := rfl
@[simp] theorem State.latchFetch_inst (b : Byte) : (s.latchFetch b).inst = s.inst := rfl
@[simp] theorem State.latchFetch_cycle (b : Byte) : (s.latchFetch b).cycle = s.cycle := rfl
@[simp] theorem State.latchFetch_fault (b : Byte) : (s.latchFetch b).fault = s.fault := rfl
@[simp] theorem State.latchFetch_config (b : Byte) : (s.latchFetch b).config = s.config := rfl
@[simp] theorem State.latchFetch_devices (b : Byte) : (s.latchFetch b).devices = s.devices := rfl
@[simp] theorem State.latchFetch_traffic (b : Byte) : (s.latchFetch b).traffic = [.read s.pc b] := rfl

/-! ## `dispatchNext` -/

@[simp] theorem State.dispatchNext_a : (s.dispatchNext).a = s.a := rfl
@[simp] theorem State.dispatchNext_x : (s.dispatchNext).x = s.x := rfl
@[simp] theorem State.dispatchNext_y : (s.dispatchNext).y = s.y := rfl
@[simp] theorem State.dispatchNext_sp : (s.dispatchNext).sp = s.sp := rfl
@[simp] theorem State.dispatchNext_p : (s.dispatchNext).p = s.p := rfl
@[simp] theorem State.dispatchNext_adh : (s.dispatchNext).adh = s.adh := rfl
@[simp] theorem State.dispatchNext_adl : (s.dispatchNext).adl = s.adl := rfl
@[simp] theorem State.dispatchNext_dl : (s.dispatchNext).dl = s.dl := rfl
@[simp] theorem State.dispatchNext_pc : (s.dispatchNext).pc = s.pc := rfl
@[simp] theorem State.dispatchNext_inst : (s.dispatchNext).inst = decodeOpcode s.config.ext s.dl := rfl
@[simp] theorem State.dispatchNext_cycle : (s.dispatchNext).cycle = 0 := rfl
@[simp] theorem State.dispatchNext_fault : (s.dispatchNext).fault = s.fault := rfl
@[simp] theorem State.dispatchNext_config : (s.dispatchNext).config = s.config := rfl
@[simp] theorem State.dispatchNext_devices : (s.dispatchNext).devices = s.devices := rfl
@[simp] theorem State.dispatchNext_traffic : (s.dispatchNext).traffic = s.traffic := rfl

/-! ## `continueWith` -/

@[simp] theorem State.continueWith_a (i : Instr) : (s.continueWith i).a = s.a := rfl
@[simp] theorem State.continueWith_x (i : Instr) : (s.continueWith i).x = s.x := rfl
@[simp] theorem State.continueWith_y (i : Instr) : (s.continueWith i).y = s.y := rfl
@[simp] theorem State.continueWith_sp (i : Instr) : (s.continueWith i).sp = s.sp := rfl
@[simp] theorem State.continueWith_p (i : Instr) : (s.continueWith i).p = s.p := rfl
@[simp] theorem State.continueWith_adh (i : Instr) : (s.continueWith i).adh = s.adh := rfl
@[simp] theorem State.continueWith_adl (i : Instr) : (s.continueWith i).adl = s.adl := rfl
@[simp] theorem State.continueWith_dl (i : Instr) : (s.continueWith i).dl = s.dl := rfl
@[simp] theorem State.continueWith_pc (i : Instr) : (s.continueWith i).pc = s.pc := rfl
@[simp] theorem State.continueWith_inst (i : Instr) : (s.continueWith i).inst = some i := rfl
@[simp] theorem State.continueWith_cycle (i : Instr) : (s.continueWith i).cycle = s.cycle + 1 := rfl
@[simp] theorem State.continueWith_fault (i : Instr) : (s.continueWith i).fault = s.fault := rfl
@[simp] theorem State.continueWith_config (i : Instr) : (s.continueWith i).config = s.config := rfl
@[simp] theorem State.continueWith_devices (i : Instr) : (s.continueWith i).devices = s.devices := rfl
@[simp] theorem State.continueWith_traffic (i : Instr) : (s.continueWith i).traffic = s.traffic := rfl

/-! ## `raiseFault` -/

@[simp] theorem State.raiseFault_a (info : FaultInfo) : (s.raiseFault info).a = s.a := rfl
@[simp] theorem State.raiseFault_x (info : FaultInfo) : (s.raiseFault info).x = s.x := rfl
@[simp] theorem State.raiseFault_y (info : FaultInfo) : (s.raiseFault info).y = s.y := rfl
@[simp] theorem State.raiseFault_sp (info : FaultInfo) : (s.raiseFault info).sp = s.sp := rfl
@[simp] theorem State.raiseFault_p (info : FaultInfo) : (s.raiseFault info).p = s.p := rfl
@[simp] theorem State.raiseFault_adh (info : FaultInfo) : (s.raiseFault info).adh = s.adh := rfl
@[simp] theorem State.raiseFault_adl (info : FaultInfo) : (s.raiseFault info).adl = s.adl := rfl
@[simp] theorem State.raiseFault_dl (info : FaultInfo) : (s.raiseFault info).dl = s.dl := rfl
@[simp] theorem State.raiseFault_pc (info : FaultInfo) : (s.raiseFault info).pc = s.pc := rfl
@[simp] theorem State.raiseFault_inst (info : FaultInfo) : (s.raiseFault info).inst = s.inst := rfl
@[simp] theorem State.raiseFault_cycle (info : FaultInfo) : (s.raiseFault info).cycle = s.cycle := rfl
@[simp] theorem State.raiseFault_fault (info : FaultInfo) : (s.raiseFault info).fault = some info := rfl
@[simp] theorem State.raiseFault_config (info : FaultInfo) : (s.raiseFault info).config = s.config := rfl
@[simp] theorem State.raiseFault_devices (info : FaultInfo) : (s.raiseFault info).devices = s.devices := rfl
@[simp] theorem State.raiseFault_traffic (info : FaultInfo) : (s.raiseFault info).traffic = s.traffic := rfl

/-! ## `register` -/

@[simp] theorem State.register_a (r : Registration) : (s.register r).a = s.a := rfl
@[simp] theorem State.register_x (r : Registration) : (s.register r).x = s.x := rfl
@[simp] theorem State.register_y (r : Registration) : (s.register r).y = s.y := rfl
@[simp] theorem State.register_sp (r : Registration) : (s.register r).sp = s.sp := rfl
@[simp] theorem State.register_p (r : Registration) : (s.register r).p = s.p := rfl
@[simp] theorem State.register_adh (r : Registration) : (s.register r).adh = s.adh := rfl
@[simp] theorem State.register_adl (r : Registration) : (s.register r).adl = s.adl := rfl
@[simp] theorem State.register_dl (r : Registration) : (s.register r).dl = s.dl := rfl
@[simp] theorem State.register_pc (r : Registration) : (s.register r).pc = s.pc := rfl
@[simp] theorem State.register_inst (r : Registration) : (s.register r).inst = s.inst := rfl
@[simp] theorem State.register_cycle (r : Registration) : (s.register r).cycle = s.cycle := rfl
@[simp] theorem State.register_fault (r : Registration) : (s.register r).fault = s.fault := rfl
@[simp] theorem State.register_traffic (r : Registration) : (s.register r).traffic = s.traffic := rfl
@[simp] theorem State.register_config (r : Registration) :
    (s.register r).config =
      s.config.register { start := r.start, stop := r.stop, device := s.devices.length } := rfl
@[simp] theorem State.register_devices (r : Registration) : (s.register r).devices = s.devices ++ [r.device] := rfl
@[simp] theorem configRegister_mappings (c : Config) (m : Mapping) :
    (c.register m).mappings = c.mappings ++ [m] := rfl
@[simp] theorem configRegister_ext (c : Config) (m : Mapping) : (c.register m).ext = c.ext := rfl
@[simp] theorem configRegister_pcOverflow (c : Config) (m : Mapping) :
    (c.register m).pcOverflow = c.pcOverflow := rfl

end Sys2Proof.Machine
end

