-- ==== Sys2Proof/Laws/Bus.lean ====
section
/-! SUPPORT. The address decoder: what its operations can do, each said once. -/

namespace Sys2Proof.Machine

open Sys2Proof

/-- Splitting an address and joining the bytes gives it back (20_memory.md R51, R66). -/
theorem joinBytes_split (address : Addr) : joinBytes (highByte address) (lowByte address) = address := by
  unfold joinBytes highByte lowByte
  apply BitVec.eq_of_getLsbD_eq
  intro i hi
  simp only [BitVec.getLsbD_or, BitVec.getLsbD_shiftLeft, BitVec.getLsbD_setWidth, BitVec.getLsbD_extractLsb',
    BitVec.zeroExtend]
  by_cases h : i < 8
  · simp [h, hi]
  · have h1 : i - 8 < 16 := by omega
    have h2 : i - 8 < 8 := by omega
    have h3 : 8 + (i - 8) = i := by omega
    simp [h, hi, h1, h2, h3]

theorem readSplit_split (s : State) (address : Addr) :
    s.readSplit (highByte address) (lowByte address) = s.busRead address := by
  rw [State.readSplit, joinBytes_split]

/-- A read sees only the configuration and the devices. -/
theorem busRead_congr {s t : State} (hc : t.config = s.config) (hd : t.devices = s.devices) (address : Addr) :
    t.busRead address = s.busRead address := by
  cases s
  cases t
  cases hc
  cases hd
  rfl

/-- Everything a write can do. -/
theorem busWrite_cases {s t : State} {address : Addr} {v : Byte} (h : s.busWrite address v = .ok t) :
    (resolve s.config.mappings address = none ∧ t = s) ∨
    ∃ m, resolve s.config.mappings address = some m ∧ (s.device m.device).accepts (m.offset address) = true ∧
      t = s.withDevice m.device ((s.device m.device).write (m.offset address) v) := by
  unfold State.busWrite at h
  split at h
  · next hr => exact .inl ⟨hr, by injection h with h; exact h.symm⟩
  · next m hr =>
    split at h
    · next ha => exact .inr ⟨m, hr, ha, by injection h with h; exact h.symm⟩
    · cases h

/-- Everything a raise of a read records: what the address resolves to, and an offset beyond that device. -/
theorem busRead_error {s : State} {address : Addr} {info : FaultInfo} (h : s.busRead address = .error info) :
    ∃ m, resolve s.config.mappings address = some m ∧ (s.device m.device).capacity ≤ (m.offset address).toNat ∧
      info = .deviceOffsetOutOfRange address (m.offset address) m.device := by
  unfold State.busRead at h
  split at h
  · cases h
  · next m hr =>
    split at h
    · cases h
    · next ha =>
      refine ⟨m, hr, ?_, by injection h with h; exact h.symm⟩
      simpa [Device.accepts] using ha

/-- A raise of a write records the same. -/
theorem busWrite_error {s : State} {address : Addr} {v : Byte} {info : FaultInfo}
    (h : s.busWrite address v = .error info) :
    ∃ m, resolve s.config.mappings address = some m ∧ (s.device m.device).capacity ≤ (m.offset address).toNat ∧
      info = .deviceOffsetOutOfRange address (m.offset address) m.device := by
  unfold State.busWrite at h
  split at h
  · cases h
  · next m hr =>
    split at h
    · cases h
    · next ha =>
      refine ⟨m, hr, ?_, by injection h with h; exact h.symm⟩
      simpa [Device.accepts] using ha

/-- A device that accepts an offset is one of the list's. -/
theorem device_lt_of_accepts {s : State} {id : Nat} {offset : Addr} (h : (s.device id).accepts offset = true) :
    id < s.devices.length := by
  by_contra hn
  have : s.devices[id]? = none := List.getElem?_eq_none (by omega)
  simp [State.device, this, Device.accepts, Device.absent] at h

theorem device_withDevice_same {s : State} {id : Nat} (h : id < s.devices.length) (d : Device) :
    (s.withDevice id d).device id = d := by
  simp [State.device, h]

theorem device_withDevice_other {s : State} {id other : Nat} (h : other ≠ id) (d : Device) :
    (s.withDevice id d).device other = s.device other := by
  simp [State.device, Ne.symm h]

/-- Putting a device back changes nothing. -/
theorem withDevice_self (s : State) (id : Nat) : s.withDevice id (s.device id) = s := by
  unfold State.withDevice State.device
  by_cases h : id < s.devices.length
  · have : s.devices[id]? = some s.devices[id] := List.getElem?_eq_getElem h
    simp [this]
  · simp [List.set_eq_of_length_le (Nat.le_of_not_lt h)]

theorem memoryDevice_wf {s : State} (h : s.devices.all Device.wf = true) (id : Nat) : (s.device id).wf = true := by
  unfold State.device
  by_cases hid : id < s.devices.length
  · rw [List.getElem?_eq_getElem hid]
    exact List.all_eq_true.mp h _ (List.getElem_mem hid)
  · rw [List.getElem?_eq_none (by omega)]
    rfl

theorem all_wf_withDevice {s : State} (h : s.devices.all Device.wf = true) {id : Nat} {d : Device} (hd : d.wf = true) :
    (s.withDevice id d).devices.all Device.wf = true := by
  rw [State.withDevice_devices, List.all_eq_true]
  intro x hx
  rcases List.mem_or_eq_of_mem_set hx with hx | rfl
  · exact List.all_eq_true.mp h x hx
  · exact hd

/-- A write keeps every device's form. -/
theorem all_wf_busWrite {s t : State} (hwf : s.devices.all Device.wf = true) {address : Addr} {v : Byte}
    (h : s.busWrite address v = .ok t) : t.devices.all Device.wf = true := by
  rcases busWrite_cases h with ⟨-, rfl⟩ | ⟨m, -, ha, rfl⟩
  · exact hwf
  · exact all_wf_withDevice hwf (Device.wf_write (memoryDevice_wf hwf _) ha v)

/-- A write changes nothing but the devices. -/
theorem busWrite_eq {s t : State} {address : Addr} {v : Byte} (h : s.busWrite address v = .ok t) :
    t = { s with devices := t.devices } := by
  rcases busWrite_cases h with ⟨-, rfl⟩ | ⟨m, -, -, rfl⟩ <;> rfl

/-- A write leaves every other storage as it was. -/
theorem busRead_busWrite_other {s t : State} {address other : Addr} {v : Byte} (h : s.busWrite address v = .ok t)
    (hne : s.storage other ≠ s.storage address) : t.busRead other = s.busRead other := by
  rcases busWrite_cases h with ⟨-, rfl⟩ | ⟨m, hr, ha, rfl⟩
  · rfl
  · unfold State.busRead
    rw [State.withDevice_config]
    cases hro : resolve s.config.mappings other with
    | none => rfl
    | some m' =>
      simp only [State.storage, hr, hro, Option.map_some, ne_eq, Option.some.injEq, Prod.mk.injEq, not_and] at hne
      dsimp only
      by_cases hid : m'.device = m.device
      · rw [hid, device_withDevice_same (device_lt_of_accepts ha)]
        simp only [Device.write_accepts, Device.read_write_other _ (hne hid)]
      · rw [device_withDevice_other hid]

/-- A write into a read/write device is what the next read of its storage returns. -/
theorem busRead_busWrite_same {s t : State} {address other : Addr} {v : Byte} {m : Mapping}
    (hwf : s.devices.all Device.wf = true) (h : s.busWrite address v = .ok t)
    (hr : resolve s.config.mappings address = some m) (hrw : (s.device m.device).readOnly = false)
    (hst : s.storage other = s.storage address) : t.busRead other = .ok v := by
  rcases busWrite_cases h with ⟨hn, -⟩ | ⟨m', hr', ha, rfl⟩
  · rw [hr] at hn; cases hn
  · rw [hr] at hr'
    injection hr' with hm
    subst hm
    unfold State.busRead
    rw [State.withDevice_config]
    cases hro : resolve s.config.mappings other with
    | none => simp [State.storage, hr, hro] at hst
    | some m' =>
      simp only [State.storage, hr, hro, Option.map_some, Option.some.injEq, Prod.mk.injEq] at hst
      simp only [hst.1, hst.2]
      rw [device_withDevice_same (device_lt_of_accepts ha)]
      simp only [Device.write_accepts, ha, if_true, Device.read_write_same (memoryDevice_wf hwf _) hrw]

/-- A handler's read changes nothing but the record of traffic, and returns what the bus reads. -/
theorem handlerRead_eq (s : State) (address : Addr) :
    s.handlerRead address = (s.busRead address).map (fun v => (v, s.withTraffic (s.traffic ++ [.read address v]))) := by
  unfold State.handlerRead
  cases s.busRead address <;> rfl

/-- A handler's write is the bus write with the record of traffic. -/
theorem handlerWrite_eq (s : State) (address : Addr) (v : Byte) :
    s.handlerWrite address v =
      (s.busWrite address v).map (fun t => t.withTraffic (s.traffic ++ [.write address v])) := by
  unfold State.handlerWrite
  cases h : s.busWrite address v with
  | error e => rfl
  | ok t =>
    have : t.traffic = s.traffic := by rw [busWrite_eq h]
    simp [Except.map, this]

end Sys2Proof.Machine
end

