-- ==== Sys2Proof/Laws/Decode.lean ====
section
/-! SUPPORT. What the dispatch function can answer, said once. -/

namespace Sys2Proof

open Sys2Proof.Machine

/-- A dispatched instance is of a configured row, is fresh (no scratch set, ready for cycle 0), and has the byte as its
opcode (30_encoding.md R94). -/
theorem decodeOpcode_some {ext : ExtOpcodes} {b : Byte} {i : Instr} (h : decodeOpcode ext b = some i) :
    i.configured ext = true ∧ readyAt i 0 = true ∧ i.opcode = b := by
  unfold decodeOpcode at h
  repeat'
    first
    | (split at h; · next hb => (cases h; simp_all [Instr.configured, readyAt, Instr.opcode]))
    | cases h

/-- A fresh instance of a configured row is what its opcode dispatches to. -/
theorem decodeOpcode_opcode {ext : ExtOpcodes} {i : Instr} (hc : i.configured ext = true) (hr : readyAt i 0 = true) :
    decodeOpcode ext i.opcode = some i := by
  cases i <;> simp_all [Instr.configured, readyAt, Instr.opcode, decodeOpcode]

end Sys2Proof
end

