-- ==== Sys2Proof/Laws/Flags.lean ====
section
/-! SUPPORT. What the flag operations and the sum of add-with-carry compute, each said once. -/

namespace Sys2Proof.Machine

open Sys2Proof

/-- The number of a flag's bit. -/
def Flag.index : Flag → Nat
  | .carry => 0
  | .zero => 1
  | .irqDisable => 2
  | .decimalMode => 3
  | .brk => 4
  | .reserved => 5
  | .overflow => 6
  | .negative => 7

/-- A flag is its bit. -/
theorem testFlag_eq (f : Flag) (p : Byte) : testFlag f p = p.getLsbD f.index := by
  revert p
  cases f <;> decide +kernel

/-- Reading a flag after an assignment: the condition where it is the same flag, the old bit elsewhere. -/
theorem testFlag_assignFlag (f g : Flag) (cond : Bool) (p : Byte) :
    testFlag g (assignFlag f cond p) = if g = f then cond else testFlag g p := by
  rw [testFlag_eq, testFlag_eq]
  cases cond <;> simp only [assignFlag, setFlag, clearFlag, if_true, Bool.false_eq_true, if_false, BitVec.getLsbD_and,
    BitVec.getLsbD_or, BitVec.getLsbD_not] <;> cases f <;> cases g <;> simp [Flag.mask, Flag.index]

/-- An assignment keeps every bit outside its mask. -/
theorem assignFlag_keeps (f : Flag) (cond : Bool) (p k : Byte) (h : k &&& f.mask = 0) :
    assignFlag f cond p &&& k = p &&& k := by
  have bit : ∀ j, (k.getLsbD j && f.mask.getLsbD j) = false := fun j => by
    rw [← BitVec.getLsbD_and, h]
    exact BitVec.getLsbD_zero
  apply BitVec.eq_of_getLsbD_eq
  intro j hj
  have hb := bit j
  cases cond <;> simp only [assignFlag, setFlag, clearFlag, if_true, Bool.false_eq_true, if_false, BitVec.getLsbD_and,
    BitVec.getLsbD_or, BitVec.getLsbD_not, hj, decide_true, Bool.true_and] <;>
    cases hk : k.getLsbD j <;> cases hm : f.mask.getLsbD j <;> simp_all

/-- The sum is exact over the natural numbers. -/
theorem adcTotal_toNat (a m : Byte) (carry : Bool) :
    (adcTotal a m carry).toNat = a.toNat + m.toNat + carry.toNat := by
  have ha := a.isLt
  have hm := m.isLt
  unfold adcTotal
  cases carry <;> simp [BitVec.toNat_add] <;> omega

/-- The result is the sum modulo 256. -/
theorem adcResult_toNat (a m : Byte) (carry : Bool) :
    (adcResult a m carry).toNat = (a.toNat + m.toNat + carry.toNat) % 256 := by
  simp [adcResult, adcTotal_toNat]

/-- Bit 7 is the sign of the two's complement reading. -/
theorem bit7_eq (v : Byte) : bit7 v = decide (128 ≤ v.toNat) := by
  revert v
  decide +kernel

end Sys2Proof.Machine
end

