-- ==== Sys2Proof/Laws/Ownership.lean ====
section
/-! SUPPORT. Registration and ownership (20_memory.md R57, R58). -/

namespace Sys2Proof.Machine

open Sys2Proof

/-- Ownership as two facts about the mapping list. -/
theorem ownsDevices_iff (s : State) :
    s.ownsDevices = true ↔
      (s.config.mappings.map Mapping.device).Nodup ∧ ∀ m ∈ s.config.mappings, m.device < s.devices.length := by
  simp [State.ownsDevices]

/-- Ownership reads only the mapping list and the number of devices. -/
theorem ownsDevices_congr {s t : State} (hm : t.config.mappings = s.config.mappings)
    (hd : t.devices.length = s.devices.length) : t.ownsDevices = s.ownsDevices := by
  simp only [State.ownsDevices, hm, hd]

/-- What resolves an address is a mapping of the list that contains it. -/
theorem resolve_some {mappings : List Mapping} {address : Addr} {m : Mapping} (h : resolve mappings address = some m) :
    m ∈ mappings ∧ m.contains address = true :=
  ⟨List.mem_of_find?_eq_some h, List.find?_some (p := fun m : Mapping => m.contains address) h⟩

/-- Two mappings of an owning block that name one device are the same mapping. -/
theorem mapping_eq_of_device_eq {s : State} (h : s.ownsDevices = true) {m m' : Mapping}
    (hm : m ∈ s.config.mappings) (hm' : m' ∈ s.config.mappings) (hd : m.device = m'.device) : m = m' :=
  List.inj_on_of_nodup_map ((ownsDevices_iff s).mp h).1 hm hm' hd

/-- A write keeps the number of devices. -/
theorem busWrite_devices_length {s t : State} {address : Addr} {v : Byte} (h : s.busWrite address v = .ok t) :
    t.devices.length = s.devices.length := by
  rcases busWrite_cases h with ⟨-, rfl⟩ | ⟨m, -, -, rfl⟩
  · rfl
  · simp

end Sys2Proof.Machine
end

