-- ==== Sys2Proof/Laws/PerInstr.lean ====
section
/-! SUPPORT. Statements made per instruction. Family EncodeShape: an instruction's encoding has the length of its class
(30_encoding.md R90) and begins with its opcode byte. -/

namespace Sys2Proof.Laws.EncodeShape

open Sys2Proof

/-- The encoding, where there is one, has its class's length and begins with the opcode. -/
def Statement (i : Instr) : Prop :=
  ∀ bytes, encode i = some bytes → bytes.length = i.mode.length ∧ bytes.head? = some i.opcode

theorem ldaImm (value : Option Byte) : Statement (.ldaImm value) := by
  intro bytes h
  cases value <;> simp only [encode, Option.some.injEq, reduceCtorEq] at h
  subst h
  exact ⟨rfl, rfl⟩

theorem adcAbs (lo hi : Option Byte) : Statement (.adcAbs lo hi) := by
  intro bytes h
  cases lo <;> cases hi <;> simp only [encode, Option.some.injEq, reduceCtorEq] at h
  subst h
  exact ⟨rfl, rfl⟩

theorem staAbs (lo hi : Option Byte) : Statement (.staAbs lo hi) := by
  intro bytes h
  cases lo <;> cases hi <;> simp only [encode, Option.some.injEq, reduceCtorEq] at h
  subst h
  exact ⟨rfl, rfl⟩

theorem clc : Statement .clc := by
  intro bytes h
  cases h
  exact ⟨rfl, rfl⟩

theorem cli : Statement .cli := by
  intro bytes h
  cases h
  exact ⟨rfl, rfl⟩

theorem cld : Statement .cld := by
  intro bytes h
  cases h
  exact ⟨rfl, rfl⟩

theorem clv : Statement .clv := by
  intro bytes h
  cases h
  exact ⟨rfl, rfl⟩

theorem ldaAbs (lo hi : Option Byte) : Statement (.ldaAbs lo hi) := by
  intro bytes h
  cases lo <;> cases hi <;> simp only [encode, Option.some.injEq, reduceCtorEq] at h
  subst h
  exact ⟨rfl, rfl⟩

end Sys2Proof.Laws.EncodeShape
end

