-- ==== Sys2Proof/Laws/Placing.lean ====
section
/-! SUPPORT. Placing bytes before a run touches no register. -/

namespace Sys2Proof.Machine

open Sys2Proof

/-- What placing keeps: the registers, the engine's own state, and the overflow rule. -/
def State.sameRegisters (s t : State) : Prop :=
  t.a = s.a ∧ t.x = s.x ∧ t.y = s.y ∧ t.sp = s.sp ∧ t.p = s.p ∧ t.pc = s.pc ∧
    t.config.ext = s.config.ext ∧ t.config.pcOverflow = s.config.pcOverflow

theorem State.sameRegisters_refl (s : State) : s.sameRegisters s :=
  ⟨rfl, rfl, rfl, rfl, rfl, rfl, rfl, rfl⟩

theorem State.sameRegisters_trans {s t u : State} (h : s.sameRegisters t) (h' : t.sameRegisters u) :
    s.sameRegisters u := by
  obtain ⟨h1, h2, h3, h4, h5, h6, h7, h8⟩ := h
  obtain ⟨k1, k2, k3, k4, k5, k6, k7, k8⟩ := h'
  exact ⟨k1.trans h1, k2.trans h2, k3.trans h3, k4.trans h4, k5.trans h5, k6.trans h6, k7.trans h7, k8.trans h8⟩

theorem State.sameRegisters_placeByte (s : State) (address : Addr) (b : Byte) :
    s.sameRegisters (s.placeByte address b) := by
  unfold State.placeByte
  split
  · exact s.sameRegisters_refl
  · dsimp only
    split <;> exact s.sameRegisters_refl

theorem State.sameRegisters_placeBytes (bytes : List Byte) :
    ∀ (s : State) (address : Addr), s.sameRegisters (s.placeBytes address bytes) := by
  induction bytes with
  | nil => exact fun s _ => s.sameRegisters_refl
  | cons b rest ih => exact fun s address => State.sameRegisters_trans (s.sameRegisters_placeByte address b) (ih _ _)

/-- After `ensureFetch` a fetch there succeeds, and no register has changed. -/
theorem State.ensureFetch_reads (s : State) (address : Addr) :
    (∃ b, (s.ensureFetch address).busRead address = .ok b) ∧ s.sameRegisters (s.ensureFetch address) := by
  unfold State.ensureFetch
  cases h : s.busRead address with
  | ok b => exact ⟨⟨b, h⟩, s.sameRegisters_refl⟩
  | error info =>
    refine ⟨⟨0x00, ?_⟩, s.sameRegisters_refl⟩
    simp [State.busRead, State.plugByte, resolve, Mapping.contains, State.device, Device.accepts, Mapping.offset,
      Device.read]
    rfl

end Sys2Proof.Machine
end

