-- ==== Sys2Proof/Laws/Step.lean ====
section
/-! SUPPORT. Everything `advance` can do, said once: the two first steps, each class's handler, `exec` and `step`. The
provers cite these instead of unfolding. -/

namespace Sys2Proof.Machine

open Sys2Proof

/-! ## Steps 1 and 2 -/

theorem fetchStage_of_raise {s : State} {info : FaultInfo} (h : s.busRead s.pc = .error info) :
    fetchStage s = .error ((s.withTraffic []).raiseFault info) := by
  unfold fetchStage
  rw [readSplit_split, h]

theorem fetchStage_of_overflow {s : State} {b : Byte} (h : s.busRead s.pc = .ok b) (ho : ¬ s.mayAdvance s.pc) :
    fetchStage s = .error ((s.latchFetch b).raiseFault (.pcOverflow s.pc)) := by
  unfold fetchStage
  rw [readSplit_split, h]
  simp only [State.mayAdvance, not_not] at ho
  simp [ho]

theorem fetchStage_of_ok {s : State} {b : Byte} (h : s.busRead s.pc = .ok b) (hm : s.mayAdvance s.pc) :
    fetchStage s = .ok (s.latchFetch b).incrementPc := by
  unfold fetchStage
  rw [readSplit_split, h]
  exact if_neg hm

/-! ## `step` -/

theorem step_of_fault {s : State} {info : FaultInfo} (h : s.fault = some info) :
    step s = .refused (.afterFatal info) := by
  simp [step, h]

theorem step_of_raise {s : State} {info : FaultInfo} (hf : s.fault = none) (h : s.busRead s.pc = .error info) :
    step s = .next ((s.withTraffic []).raiseFault info) := by
  simp [step, hf, fetchStage_of_raise h]

theorem step_of_overflow {s : State} {b : Byte} (hf : s.fault = none) (h : s.busRead s.pc = .ok b)
    (ho : ¬ s.mayAdvance s.pc) : step s = .next ((s.latchFetch b).raiseFault (.pcOverflow s.pc)) := by
  simp [step, hf, fetchStage_of_overflow h ho]

theorem step_of_active {s : State} {b : Byte} {i : Instr} (hf : s.fault = none) (h : s.busRead s.pc = .ok b)
    (hm : s.mayAdvance s.pc) (hi : s.inst = some i) : step s = exec i (s.latchFetch b).incrementPc := by
  simp [step, hf, fetchStage_of_ok h hm, hi]

theorem step_of_idle {s : State} {b : Byte} (hf : s.fault = none) (h : s.busRead s.pc = .ok b)
    (hm : s.mayAdvance s.pc) (hi : s.inst = none) : step s = .next (s.latchFetch b).incrementPc.dispatchNext := by
  simp [step, hf, fetchStage_of_ok h hm, hi]

/-- Every step is one of these five. -/
theorem step_cases (s : State) :
    (∃ info, s.fault = some info ∧ step s = .refused (.afterFatal info)) ∨
    (s.fault = none ∧ ∃ info, s.busRead s.pc = .error info ∧ step s = .next ((s.withTraffic []).raiseFault info)) ∨
    (s.fault = none ∧ ∃ b, s.busRead s.pc = .ok b ∧ ¬ s.mayAdvance s.pc ∧
      step s = .next ((s.latchFetch b).raiseFault (.pcOverflow s.pc))) ∨
    (s.fault = none ∧ ∃ b i, s.busRead s.pc = .ok b ∧ s.mayAdvance s.pc ∧ s.inst = some i ∧
      step s = exec i (s.latchFetch b).incrementPc) ∨
    (s.fault = none ∧ ∃ b, s.busRead s.pc = .ok b ∧ s.mayAdvance s.pc ∧ s.inst = none ∧
      step s = .next (s.latchFetch b).incrementPc.dispatchNext) := by
  cases hf : s.fault with
  | some info => exact .inl ⟨info, rfl, step_of_fault hf⟩
  | none =>
    cases h : s.busRead s.pc with
    | error info => exact .inr (.inl ⟨rfl, info, rfl, step_of_raise hf h⟩)
    | ok b =>
      by_cases hm : s.mayAdvance s.pc
      · cases hi : s.inst with
        | some i => exact .inr (.inr (.inr (.inl ⟨rfl, b, i, rfl, hm, rfl, step_of_active hf h hm hi⟩)))
        | none => exact .inr (.inr (.inr (.inr ⟨rfl, b, rfl, hm, rfl, step_of_idle hf h hm hi⟩)))
      · exact .inr (.inr (.inl ⟨rfl, b, rfl, hm, step_of_overflow hf h hm⟩))

/-! ## The handlers -/

/-- Every call of an implied handler is one of these three. -/
theorem impliedHandler_cases (i : Instr) (effect : State → State) (s : State) :
    (s.cycle = 0 ∧ impliedHandler i effect s = .continued i s.correctPc) ∨
    (s.cycle = 1 ∧ impliedHandler i effect s = .finished (effect s)) ∨
    (2 ≤ s.cycle ∧ impliedHandler i effect s = cycleContract i.opcode s) := by
  unfold impliedHandler
  match h : s.cycle with
  | 0 => exact .inl ⟨rfl, rfl⟩
  | 1 => exact .inr (.inl ⟨rfl, rfl⟩)
  | n + 2 => exact .inr (.inr ⟨by omega, rfl⟩)

/-- Every call of an immediate handler is one of these four. -/
theorem immediateHandler_cases (make : Option Byte → Instr) (value : Option Byte) (commit : Byte → State → State)
    (s : State) :
    (s.cycle = 0 ∧ immediateHandler make value commit s = .continued (make (some s.dl)) s) ∨
    (s.cycle = 1 ∧ ∃ v, value = some v ∧ immediateHandler make value commit s = .finished (commit v s)) ∨
    (s.cycle = 1 ∧ value = none ∧
      immediateHandler make value commit s = .unset (.unsetScratch (make value).opcode s.cycle)) ∨
    (2 ≤ s.cycle ∧ immediateHandler make value commit s = cycleContract (make value).opcode s) := by
  unfold immediateHandler
  match h : s.cycle, value with
  | 0, _ => exact .inl ⟨rfl, rfl⟩
  | 1, some v => exact .inr (.inl ⟨rfl, v, rfl, rfl⟩)
  | 1, none => exact .inr (.inr (.inl ⟨rfl, rfl, rfl⟩))
  | n + 2, _ => exact .inr (.inr (.inr ⟨by omega, rfl⟩))

/-- Every call of an absolute handler is one of these seven. -/
theorem absoluteHandler_cases (make : Option Byte → Option Byte → Instr) (lo hi : Option Byte)
    (operation : Addr → State → Except FaultInfo State) (s : State) :
    (s.cycle = 0 ∧ absoluteHandler make lo hi operation s = .continued (make (some s.dl) hi) s) ∨
    (s.cycle = 1 ∧ absoluteHandler make lo hi operation s = .continued (make lo (some s.dl)) s) ∨
    (s.cycle = 2 ∧ ∃ l h t, lo = some l ∧ hi = some h ∧ operation (effectiveAddress l h) s.correctPc = .ok t ∧
      absoluteHandler make lo hi operation s = .continued (make lo hi) t) ∨
    (s.cycle = 2 ∧ ∃ l h info, lo = some l ∧ hi = some h ∧
      operation (effectiveAddress l h) s.correctPc = .error info ∧
      absoluteHandler make lo hi operation s = .raised info s.correctPc) ∨
    (s.cycle = 2 ∧ (lo = none ∨ hi = none) ∧
      absoluteHandler make lo hi operation s = .unset (.unsetScratch (make lo hi).opcode s.cycle)) ∨
    (s.cycle = 3 ∧ absoluteHandler make lo hi operation s = .finished s) ∨
    (4 ≤ s.cycle ∧ absoluteHandler make lo hi operation s = cycleContract (make lo hi).opcode s) := by
  unfold absoluteHandler
  match h : s.cycle, lo, hi with
  | 0, _, _ => exact .inl ⟨rfl, rfl⟩
  | 1, _, _ => exact .inr (.inl ⟨rfl, rfl⟩)
  | 2, some l, some h' =>
    cases ho : operation (effectiveAddress l h') s.correctPc with
    | ok t => exact .inr (.inr (.inl ⟨rfl, l, h', t, rfl, rfl, ho, by simp [ho]⟩))
    | error info => exact .inr (.inr (.inr (.inl ⟨rfl, l, h', info, rfl, rfl, ho, by simp [ho]⟩)))
  | 2, none, _ => exact .inr (.inr (.inr (.inr (.inl ⟨rfl, .inl rfl, rfl⟩))))
  | 2, some _, none => exact .inr (.inr (.inr (.inr (.inl ⟨rfl, .inr rfl, rfl⟩))))
  | 3, _, _ => exact .inr (.inr (.inr (.inr (.inr (.inl ⟨rfl, rfl⟩)))))
  | n + 4, _, _ => exact .inr (.inr (.inr (.inr (.inr (.inr ⟨by omega, rfl⟩)))))

/-! ## The operations of cycle 2 -/

theorem adcOperation_eq (ea : Addr) (s : State) :
    adcOperation ea s = (s.busRead ea).map (fun m =>
      ((((s.withTraffic (s.traffic ++ [.read ea m])).withA (adcResult s.a m (testFlag .carry s.p))).withP
        (adcFlags s.a m s.p)))) := by
  unfold adcOperation
  rw [handlerRead_eq]
  cases s.busRead ea <;> rfl

theorem ldaAbsOperation_eq (ea : Addr) (s : State) :
    ldaAbsOperation ea s =
      (s.busRead ea).map (fun m => loadAccumulator m (s.withTraffic (s.traffic ++ [.read ea m]))) := by
  unfold ldaAbsOperation
  rw [handlerRead_eq]
  cases s.busRead ea <;> rfl

theorem staOperation_eq (ea : Addr) (s : State) :
    staOperation ea s = (s.busWrite ea s.a).map (fun t => t.withTraffic (s.traffic ++ [.write ea s.a])) :=
  handlerWrite_eq s ea s.a

/-- The correction does not change what the bus reads. -/
@[simp] theorem busRead_correctPc (s : State) (address : Addr) : s.correctPc.busRead address = s.busRead address := rfl

/-- The fetch does not change what the bus reads. -/
@[simp] theorem busRead_fetched (s : State) (b : Byte) (address : Addr) :
    (s.latchFetch b).incrementPc.busRead address = s.busRead address := rfl

/-! ## `exec` -/

/-- An absolute instance with its low address byte latched; the other classes as they are. -/
def latchLo (b : Byte) : Instr → Instr
  | .adcAbs _ hi => .adcAbs (some b) hi
  | .staAbs _ hi => .staAbs (some b) hi
  | .ldaAbs _ hi => .ldaAbs (some b) hi
  | .ldaImm value => .ldaImm value
  | .clc => .clc
  | .cli => .cli
  | .cld => .cld
  | .clv => .clv

/-- An absolute instance with its high address byte latched; the other classes as they are. -/
def latchHi (b : Byte) : Instr → Instr
  | .adcAbs lo _ => .adcAbs lo (some b)
  | .staAbs lo _ => .staAbs lo (some b)
  | .ldaAbs lo _ => .ldaAbs lo (some b)
  | .ldaImm value => .ldaImm value
  | .clc => .clc
  | .cli => .cli
  | .cld => .cld
  | .clv => .clv

/-- An implied instance's call is its handler's, clearing the row's one flag. -/
theorem exec_implied {i : Instr} (h : i.mode = .implied) (s : State) :
    exec i s = react (impliedHandler i (fun s => s.withP (s.p &&& ~~~flagsWritten i)) s) := by
  cases i <;> first | rfl | cases h

/-- The ways a call of `exec` can end in a next state, all of them, with that state. -/
inductive ExecNext (i : Instr) (s : State) : State → Prop where
  | impliedCorrects (hm : i.mode = .implied) (hc : s.cycle = 0) : ExecNext i s (s.correctPc.continueWith i)
  | impliedClears (hm : i.mode = .implied) (hc : s.cycle = 1) :
      ExecNext i s (s.withP (s.p &&& ~~~flagsWritten i)).dispatchNext
  | immediateLatches (value : Option Byte) (hi : i = .ldaImm value) (hc : s.cycle = 0) :
      ExecNext i s (s.continueWith (.ldaImm (some s.dl)))
  | immediateCommits (v : Byte) (hi : i = .ldaImm (some v)) (hc : s.cycle = 1) :
      ExecNext i s (loadAccumulator v s).dispatchNext
  | absoluteLatchesLo (hm : i.mode = .absolute) (hc : s.cycle = 0) : ExecNext i s (s.continueWith (latchLo s.dl i))
  | absoluteLatchesHi (hm : i.mode = .absolute) (hc : s.cycle = 1) : ExecNext i s (s.continueWith (latchHi s.dl i))
  | adcAdds (l h m : Byte) (hi : i = .adcAbs (some l) (some h)) (hc : s.cycle = 2)
      (hr : s.busRead (effectiveAddress l h) = .ok m) :
      ExecNext i s ((((s.correctPc.withTraffic (s.traffic ++ [.read (effectiveAddress l h) m])).withA
        (adcResult s.a m (testFlag .carry s.p))).withP (adcFlags s.a m s.p)).continueWith i)
  | ldaLoads (l h m : Byte) (hi : i = .ldaAbs (some l) (some h)) (hc : s.cycle = 2)
      (hr : s.busRead (effectiveAddress l h) = .ok m) :
      ExecNext i s
        ((loadAccumulator m (s.correctPc.withTraffic (s.traffic ++ [.read (effectiveAddress l h) m]))).continueWith i)
  | staStores (l h : Byte) (u : State) (hi : i = .staAbs (some l) (some h)) (hc : s.cycle = 2)
      (hw : s.correctPc.busWrite (effectiveAddress l h) s.a = .ok u) :
      ExecNext i s ((u.withTraffic (s.traffic ++ [.write (effectiveAddress l h) s.a])).continueWith i)
  | accessRaises (info : FaultInfo) (l h : Byte) (hm : i.mode = .absolute) (hc : s.cycle = 2)
      (hi : latchHi h (latchLo l i) = i)
      (hr : s.busRead (effectiveAddress l h) = .error info ∨
        s.correctPc.busWrite (effectiveAddress l h) s.a = .error info) :
      ExecNext i s (s.correctPc.raiseFault info)
  | absoluteFills (hm : i.mode = .absolute) (hc : s.cycle = 3) : ExecNext i s s.dispatchNext
  | undeclaredCycle (hc : i.mode.cycles ≤ s.cycle) :
      ExecNext i s (s.raiseFault (.cycleContractViolation i.opcode s.cycle s.pc s.dl))

theorem react_next_adc {lo hi : Option Byte} {s t : State}
    (h : react (absoluteHandler .adcAbs lo hi adcOperation s) = .next t) : ExecNext (.adcAbs lo hi) s t := by
  rcases absoluteHandler_cases .adcAbs lo hi adcOperation s with
    ⟨hc, he⟩ | ⟨hc, he⟩ | ⟨hc, l, h', u, rfl, rfl, ho, he⟩ | ⟨hc, l, h', info, rfl, rfl, ho, he⟩ | ⟨hc, -, he⟩ |
    ⟨hc, he⟩ | ⟨hc, he⟩ <;> rw [he] at h <;> cases h
  · exact .absoluteLatchesLo rfl hc
  · exact .absoluteLatchesHi rfl hc
  · rw [adcOperation_eq, busRead_correctPc] at ho
    cases hr : s.busRead (effectiveAddress l h') with
    | error e => rw [hr] at ho; cases ho
    | ok m => rw [hr] at ho; injection ho with ho; subst ho; exact .adcAdds l h' m rfl hc hr
  · rw [adcOperation_eq, busRead_correctPc] at ho
    cases hr : s.busRead (effectiveAddress l h') with
    | ok m => rw [hr] at ho; cases ho
    | error e => rw [hr] at ho; injection ho with ho; subst ho; exact .accessRaises e l h' rfl hc rfl (.inl hr)
  · exact .absoluteFills rfl hc
  · exact .undeclaredCycle hc

theorem react_next_lda {lo hi : Option Byte} {s t : State}
    (h : react (absoluteHandler .ldaAbs lo hi ldaAbsOperation s) = .next t) : ExecNext (.ldaAbs lo hi) s t := by
  rcases absoluteHandler_cases .ldaAbs lo hi ldaAbsOperation s with
    ⟨hc, he⟩ | ⟨hc, he⟩ | ⟨hc, l, h', u, rfl, rfl, ho, he⟩ | ⟨hc, l, h', info, rfl, rfl, ho, he⟩ | ⟨hc, -, he⟩ |
    ⟨hc, he⟩ | ⟨hc, he⟩ <;> rw [he] at h <;> cases h
  · exact .absoluteLatchesLo rfl hc
  · exact .absoluteLatchesHi rfl hc
  · rw [ldaAbsOperation_eq, busRead_correctPc] at ho
    cases hr : s.busRead (effectiveAddress l h') with
    | error e => rw [hr] at ho; cases ho
    | ok m => rw [hr] at ho; injection ho with ho; subst ho; exact .ldaLoads l h' m rfl hc hr
  · rw [ldaAbsOperation_eq, busRead_correctPc] at ho
    cases hr : s.busRead (effectiveAddress l h') with
    | ok m => rw [hr] at ho; cases ho
    | error e => rw [hr] at ho; injection ho with ho; subst ho; exact .accessRaises e l h' rfl hc rfl (.inl hr)
  · exact .absoluteFills rfl hc
  · exact .undeclaredCycle hc

theorem react_next_sta {lo hi : Option Byte} {s t : State}
    (h : react (absoluteHandler .staAbs lo hi staOperation s) = .next t) : ExecNext (.staAbs lo hi) s t := by
  rcases absoluteHandler_cases .staAbs lo hi staOperation s with
    ⟨hc, he⟩ | ⟨hc, he⟩ | ⟨hc, l, h', u, rfl, rfl, ho, he⟩ | ⟨hc, l, h', info, rfl, rfl, ho, he⟩ | ⟨hc, -, he⟩ |
    ⟨hc, he⟩ | ⟨hc, he⟩ <;> rw [he] at h <;> cases h
  · exact .absoluteLatchesLo rfl hc
  · exact .absoluteLatchesHi rfl hc
  · rw [staOperation_eq, State.correctPc_a] at ho
    cases hw : s.correctPc.busWrite (effectiveAddress l h') s.a with
    | error e => rw [hw] at ho; cases ho
    | ok m => rw [hw] at ho; injection ho with ho; subst ho; exact .staStores l h' m rfl hc hw
  · rw [staOperation_eq, State.correctPc_a] at ho
    cases hw : s.correctPc.busWrite (effectiveAddress l h') s.a with
    | ok m => rw [hw] at ho; cases ho
    | error e => rw [hw] at ho; injection ho with ho; subst ho; exact .accessRaises e l h' rfl hc rfl (.inr hw)
  · exact .absoluteFills rfl hc
  · exact .undeclaredCycle hc

theorem react_next_imm {value : Option Byte} {s t : State}
    (h : react (immediateHandler .ldaImm value loadAccumulator s) = .next t) : ExecNext (.ldaImm value) s t := by
  rcases immediateHandler_cases .ldaImm value loadAccumulator s with
    ⟨hc, he⟩ | ⟨hc, v, rfl, he⟩ | ⟨hc, -, he⟩ | ⟨hc, he⟩ <;> rw [he] at h <;> cases h
  · exact .immediateLatches value rfl hc
  · exact .immediateCommits v rfl hc
  · exact .undeclaredCycle hc

theorem react_next_implied {i : Instr} (hm : i.mode = .implied) {s t : State} (h : exec i s = .next t) :
    ExecNext i s t := by
  rw [exec_implied hm] at h
  rcases impliedHandler_cases i (fun s => s.withP (s.p &&& ~~~flagsWritten i)) s with
    ⟨hc, he⟩ | ⟨hc, he⟩ | ⟨hc, he⟩ <;> rw [he] at h <;> cases h
  · exact .impliedCorrects hm hc
  · exact .impliedClears hm hc
  · exact .undeclaredCycle (by rw [hm]; exact hc)

/-- The inversion of `exec`: a next state is one of `ExecNext`'s. -/
theorem exec_next {i : Instr} {s t : State} (h : exec i s = .next t) : ExecNext i s t := by
  cases i with
  | ldaImm value => exact react_next_imm h
  | adcAbs lo hi => exact react_next_adc h
  | staAbs lo hi => exact react_next_sta h
  | clc => exact react_next_implied rfl h
  | cli => exact react_next_implied rfl h
  | cld => exact react_next_implied rfl h
  | clv => exact react_next_implied rfl h
  | ldaAbs lo hi => exact react_next_lda h

/-- `exec` never refuses. -/
theorem exec_ne_refused (i : Instr) (s : State) (r : Refusal) : exec i s ≠ .refused r := by
  have key : ∀ h : Handled, react h ≠ .refused r := fun h => by cases h <;> simp [react]
  cases i <;> exact key _

/-! ## `exec`, forward: one lemma per declared cycle -/

theorem exec_implied_corrects {i : Instr} (hm : i.mode = .implied) {s : State} (hc : s.cycle = 0) :
    exec i s = .next (s.correctPc.continueWith i) := by
  rw [exec_implied hm, impliedHandler, hc]
  rfl

theorem exec_implied_clears {i : Instr} (hm : i.mode = .implied) {s : State} (hc : s.cycle = 1) :
    exec i s = .next (s.withP (s.p &&& ~~~flagsWritten i)).dispatchNext := by
  rw [exec_implied hm, impliedHandler, hc]
  rfl

theorem exec_ldaImm_latches (value : Option Byte) {s : State} (hc : s.cycle = 0) :
    exec (.ldaImm value) s = .next (s.continueWith (.ldaImm (some s.dl))) := by
  show react (immediateHandler .ldaImm value loadAccumulator s) = _
  unfold immediateHandler
  rw [hc]
  rfl

theorem exec_ldaImm_commits (v : Byte) {s : State} (hc : s.cycle = 1) :
    exec (.ldaImm (some v)) s = .next (loadAccumulator v s).dispatchNext := by
  show react (immediateHandler .ldaImm (some v) loadAccumulator s) = _
  unfold immediateHandler
  rw [hc]
  rfl

theorem exec_absolute_latchesLo {i : Instr} (hm : i.mode = .absolute) {s : State} (hc : s.cycle = 0) :
    exec i s = .next (s.continueWith (latchLo s.dl i)) := by
  cases i <;> first
    | (cases hm; done)
    | (simp only [exec, execAdcAbs, execStaAbs, execLdaAbs]; unfold absoluteHandler; rw [hc]; rfl)

theorem exec_absolute_latchesHi {i : Instr} (hm : i.mode = .absolute) {s : State} (hc : s.cycle = 1) :
    exec i s = .next (s.continueWith (latchHi s.dl i)) := by
  cases i <;> first
    | (cases hm; done)
    | (simp only [exec, execAdcAbs, execStaAbs, execLdaAbs]; unfold absoluteHandler; rw [hc]; rfl)

theorem exec_absolute_fills {i : Instr} (hm : i.mode = .absolute) {s : State} (hc : s.cycle = 3) :
    exec i s = .next s.dispatchNext := by
  cases i <;> first
    | (cases hm; done)
    | (simp only [exec, execAdcAbs, execStaAbs, execLdaAbs]; unfold absoluteHandler; rw [hc]; rfl)

/-- Cycle 2 of an absolute handler whose operands are latched. -/
theorem react_absolute_two (make : Option Byte → Option Byte → Instr) (lo hi : Byte)
    (operation : Addr → State → Except FaultInfo State) {s : State} (hc : s.cycle = 2) :
    react (absoluteHandler make (some lo) (some hi) operation s) =
      (match operation (effectiveAddress lo hi) s.correctPc with
        | .ok t => .next (t.continueWith (make (some lo) (some hi)))
        | .error info => .next (s.correctPc.raiseFault info)) := by
  unfold absoluteHandler
  rw [hc]
  dsimp only
  cases operation (effectiveAddress lo hi) s.correctPc <;> rfl

theorem exec_adcAbs_adds {lo hi m : Byte} {s : State} (hc : s.cycle = 2)
    (hr : s.busRead (effectiveAddress lo hi) = .ok m) :
    exec (.adcAbs (some lo) (some hi)) s =
      .next ((((s.correctPc.withTraffic (s.traffic ++ [.read (effectiveAddress lo hi) m])).withA
        (adcResult s.a m (testFlag .carry s.p))).withP (adcFlags s.a m s.p)).continueWith
          (.adcAbs (some lo) (some hi))) := by
  show react (absoluteHandler _ _ _ _ _) = _
  rw [react_absolute_two _ _ _ _ hc, adcOperation_eq, busRead_correctPc, hr]
  rfl

theorem exec_ldaAbs_loads {lo hi m : Byte} {s : State} (hc : s.cycle = 2)
    (hr : s.busRead (effectiveAddress lo hi) = .ok m) :
    exec (.ldaAbs (some lo) (some hi)) s =
      .next ((loadAccumulator m (s.correctPc.withTraffic
        (s.traffic ++ [.read (effectiveAddress lo hi) m]))).continueWith (.ldaAbs (some lo) (some hi))) := by
  show react (absoluteHandler _ _ _ _ _) = _
  rw [react_absolute_two _ _ _ _ hc, ldaAbsOperation_eq, busRead_correctPc, hr]
  rfl

theorem exec_staAbs_stores {lo hi : Byte} {s u : State} (hc : s.cycle = 2)
    (hw : s.correctPc.busWrite (effectiveAddress lo hi) s.a = .ok u) :
    exec (.staAbs (some lo) (some hi)) s =
      .next ((u.withTraffic (s.traffic ++ [.write (effectiveAddress lo hi) s.a])).continueWith
        (.staAbs (some lo) (some hi))) := by
  show react (absoluteHandler _ _ _ _ _) = _
  rw [react_absolute_two _ _ _ _ hc, staOperation_eq, State.correctPc_a, hw]
  rfl

/-! ## Runs -/

theorem runFor_zero (s : State) : runFor 0 s = .next s := rfl

/-- One call, and then the rest of the run if it answered a next state. -/
theorem runFor_succ (n : Nat) (s : State) :
    runFor (n + 1) s = (match step s with
      | .next t => runFor n t
      | .fault r => .fault r
      | .refused r => .refused r) := by
  refine Eq.trans (Host.Core.run.eq_2 Sys2Proof.core s n) ?_
  have h : Sys2Proof.core.step s = step s := rfl
  rw [h]
  cases step s <;> rfl

theorem runFor_succ_next {n : Nat} {s t : State} (h : step s = .next t) : runFor (n + 1) s = runFor n t := by
  rw [runFor_succ, h]

theorem runFor_succ_fault {n : Nat} {s : State} {r : Fault} (h : step s = .fault r) : runFor (n + 1) s = .fault r := by
  rw [runFor_succ, h]

theorem runFor_succ_refused {n : Nat} {s : State} {r : Refusal} (h : step s = .refused r) :
    runFor (n + 1) s = .refused r := by
  rw [runFor_succ, h]

/-- A property of two states that every step keeps holds over every run. -/
theorem runFor_induction {R : State → State → Prop} (hrefl : ∀ s, R s s)
    (htrans : ∀ s t u, R s t → R t u → R s u) (hstep : ∀ s t, step s = .next t → R s t) :
    ∀ (n : Nat) (s t : State), runFor n s = .next t → R s t := by
  intro n
  induction n with
  | zero => intro s t h; rw [runFor_zero] at h; injection h with h; subst h; exact hrefl s
  | succ n ih =>
    intro s t h
    cases hs : step s with
    | next u => rw [runFor_succ_next hs] at h; exact htrans s u t (hstep s u hs) (ih u t h)
    | fault r => rw [runFor_succ_fault hs] at h; cases h
    | refused r => rw [runFor_succ_refused hs] at h; cases h

end Sys2Proof.Machine
end

