-- ==== Sys2Proof/Tests/Slice0.lean ====
section
/-! SUPPORT. The model's own tests, each about one step on a small state, and one witness for every obligation that has
hypotheses. Expected values are the vectors of 95_test_vectors.md, cited by id, or the cited rule's. -/

namespace Sys2Proof.Tests

open Sys2Proof Sys2Proof.Machine

/-! ## The demonstration state

RAM at 0x0000 to 0x00FF, a read-only device shadowed by it over 0x0080 to 0x00FF (95, section 2.2), a device smaller than
its mapping at 0x4000 (95, D-12), and a RAM at the top of the address space (95, P5). 0x2000 is unmapped. -/

def demo (ram : Memory) : State :=
  State.construct Launch.reference
    { ext := ExtOpcodes.all
      pcOverflow := .wrap
      mappings :=
        [{ start := 0x0000, stop := 0x00FF, device := 0 }, { start := 0x0080, stop := 0x017F, device := 1 },
         { start := 0x4000, stop := 0x40FF, device := 2 }, { start := 0xFF00, stop := 0xFFFF, device := 3 }] }
    [{ capacity := 0x100, readOnly := false, contents := ram },
     { capacity := 0x100, readOnly := true, contents := [(0x10, 0x22), (0x80, 0x33)] },
     { capacity := 0x10, readOnly := false, contents := [] },
     { capacity := 0x100, readOnly := false, contents := [(0xFF, 0x33)] }]

/-- The demonstration state with an instance active. -/
def active (ram : Memory) (i : Instr) (cycle : Nat) (pc : Addr) : State :=
  { demo ram with inst := some i, cycle := cycle, pc := pc }

/-- The same configuration without the mapping that does not fit its device. -/
def fitting (ram : Memory) : State :=
  { demo ram with config := Config.reference }

/-- `PC_OVERFLOW = fault` (95, P5b). -/
def faulting (s : State) : State :=
  { s with config := { s.config with pcOverflow := .fault } }

/-- A and P after an outcome. -/
def aAndP (o : Host.Outcome State Fault Refusal) : Option (Byte × Byte) :=
  (nextState o).map fun t => (t.a, t.p)

/-! ## WellFormed: an ill-formed term for each check -/

theorem test_wf_refuses_unset_immediate : (Instr.ldaImm none).wf ExtOpcodes.all = false := by decide
theorem test_wf_refuses_unset_low : (Instr.adcAbs none (some 0)).wf ExtOpcodes.all = false := by decide
theorem test_wf_refuses_unset_high : (Instr.staAbs (some 0) none).wf ExtOpcodes.all = false := by decide
theorem test_wf_refuses_unset_load : (Instr.ldaAbs none none).wf ExtOpcodes.all = false := by decide
theorem test_wf_refuses_absent_ext_row :
    [Instr.clc, .cli, .cld, .clv, .ldaAbs (some 0) (some 0)].all (fun i => i.wf ExtOpcodes.empty = false) = true := by
  decide
theorem test_wf_accepts_ext_row : (Instr.ldaAbs (some 0) (some 0)).wf ExtOpcodes.all = true := by decide
theorem test_wf_accepts_base_row : (Instr.adcAbs (some 0) (some 0)).wf ExtOpcodes.empty = true := by decide

/-! ## Decoding: words written out from 30_encoding.md R90 to R93 -/

theorem test_decode_ldaImm :
    decode ExtOpcodes.empty [0b10101001, 0x05] = .ok (.ldaImm (some 0x05), []) := by decide
theorem test_decode_adcAbs :
    decode ExtOpcodes.empty [0b01101101, 0x10, 0x20] = .ok (.adcAbs (some 0x10) (some 0x20), []) := by decide
theorem test_decode_staAbs :
    decode ExtOpcodes.empty [0b10001101, 0x10, 0x20] = .ok (.staAbs (some 0x10) (some 0x20), []) := by decide
theorem test_decode_clc : decode ExtOpcodes.all [0b00011000] = .ok (.clc, []) := by decide
theorem test_decode_cli : decode ExtOpcodes.all [0b01011000] = .ok (.cli, []) := by decide
theorem test_decode_cld : decode ExtOpcodes.all [0b11011000] = .ok (.cld, []) := by decide
theorem test_decode_clv : decode ExtOpcodes.all [0b10111000] = .ok (.clv, []) := by decide
theorem test_decode_ldaAbs :
    decode ExtOpcodes.all [0b10101101, 0x30, 0x00] = .ok (.ldaAbs (some 0x30) (some 0x00), []) := by decide
theorem test_decode_rejects :
    decode ExtOpcodes.all [] = .error .empty ∧ decode ExtOpcodes.all [0x00] = .error (.unrecognized 0x00) ∧
    decode ExtOpcodes.all [0x38] = .error (.unrecognized 0x38) ∧ decode ExtOpcodes.all [0xA9] = .error (.truncated 0xA9) ∧
    decode ExtOpcodes.all [0x6D, 0x10] = .error (.truncated 0x6D) ∧
    decode ExtOpcodes.empty [0xAD, 0x30, 0x00] = .error (.unrecognized 0xAD) := by decide
theorem test_encode_refuses_unset : encode (.ldaImm none) = none ∧ encode (.staAbs (some 0) none) = none := by decide
/-- The opcode table's numbering: the operand bytes count on from bit 8, an 8-bit row's operands are zero. -/
theorem test_decodeTableWord :
    decodeTableWord 24 0x20108D = some (.staAbs (some 0x10) (some 0x20)) ∧
    decodeTableWord 8 0xAD = some (.ldaAbs (some 0x00) (some 0x00)) ∧ decodeTableWord 8 0xFF = none := by decide

/-! ## Flags (95, F-2, F-5, F-6) and the decoder of addresses (95, D-3 to D-6, D-8, D-12) -/

theorem test_flag_operations :
    clearFlag .zero 0xFF = 0xFD ∧ setFlag .negative 0x5A = 0xDA ∧ clearFlag .overflow 0xDA = 0x9A ∧
    assignFlag .zero false 0x02 = 0x00 := by decide
theorem test_bus_reads :
    (demo []).busRead 0x0090 = .ok 0x00 ∧ (demo []).busRead 0x0100 = .ok 0x33 ∧ (demo []).busRead 0x0180 = .ok 0x00 ∧
    (demo []).busRead 0x4010 = .error (.deviceOffsetOutOfRange 0x4010 0x0010 2) := by decide
theorem test_bus_writes :
    (demo []).busWrite 0x0100 0x99 = .ok (demo []) ∧ (demo []).busWrite 0x0200 0x55 = .ok (demo []) ∧
    (demo []).busWrite 0x0050 0x77 = .ok (demo [(0x50, 0x77)]) ∧
    (demo [(0x50, 0x77)]).busWrite 0x0050 0x00 = .ok (demo []) := by decide

/-! ## The instructions, one call each -/

/-- 95, IP-1 to IP-6. -/
theorem test_clc : aAndP (step { active [] .clc 1 0x0001 with p := 0xFF }) = some (0x00, 0xFE) := by decide
theorem test_cli : aAndP (step { active [] .cli 1 0x0001 with p := 0xFF }) = some (0x00, 0xFB) := by decide
theorem test_cld : aAndP (step { active [] .cld 1 0x0001 with p := 0xFF }) = some (0x00, 0xF7) := by decide
theorem test_clv : aAndP (step { active [] .clv 1 0x0001 with p := 0x40 }) = some (0x00, 0x00) := by decide
/-- 95, IP-1: PC after call 2 is 0x0001. -/
theorem test_implied_corrects_pc :
    (nextState (step (active [] .clc 0 0x0001))).map (fun t => (t.pc, t.cycle)) = some (0x0001, 1) := by decide
/-- 95, M-7 and M-8. -/
theorem test_ldaImm_zero :
    aAndP (step { active [] (.ldaImm (some 0x00)) 1 0x0002 with p := 0xFF }) = some (0x00, 0x7F) := by decide
theorem test_ldaImm_negative :
    aAndP (step { active [] (.ldaImm (some 0x80)) 1 0x0002 with p := 0xFF }) = some (0x80, 0xFD) := by decide
/-- 95, A-3 (the as-built V) and A-19 (D has no part). -/
theorem test_adc_as_built_overflow :
    aAndP (step { active [(0x10, 0x01)] (.adcAbs (some 0x10) (some 0x00)) 2 0x0003 with a := 0xFF }) =
      some (0x00, 0x43) := by decide
theorem test_adc_ignores_decimal :
    aAndP (step { active [(0x10, 0x01)] (.adcAbs (some 0x10) (some 0x00)) 2 0x0003 with a := 0x09, p := 0x08 }) =
      some (0x0A, 0x08) := by decide
/-- 95, L-4, and L-3 with the open bus. -/
theorem test_ldaAbs_negative :
    aAndP (step { active [(0x30, 0x80)] (.ldaAbs (some 0x30) (some 0x00)) 2 0x0003 with p := 0x41 }) =
      some (0x80, 0xC1) := by decide
theorem test_ldaAbs_unmapped :
    aAndP (step (active [] (.ldaAbs (some 0x00) (some 0x20)) 2 0x0003)) = some (0x00, 0x02) := by decide
/-- 95, S-5: the write lands at Q+3 while P is kept, DL still the old byte. -/
theorem test_sta_over_next_opcode :
    (nextState (step { active [] (.staAbs (some 0x03) (some 0x00)) 2 0x0003 with a := 0x55, p := 0xFF })).map
      (fun t => (t.busRead 0x0003, t.dl, t.p, t.pc)) = some (.ok 0x55, 0x00, 0xFF, 0x0003) := by decide
/-- 95, S-2: the read-only device first. -/
theorem test_sta_read_only :
    (nextState (step { active [] (.staAbs (some 0x00) (some 0x01)) 2 0x0003 with a := 0x55 })).map
      (fun t => t.devices) = some (demo []).devices := by decide
/-- 43_absolute.md R180: cycles 0 and 1 latch the low and then the high byte. -/
theorem test_absolute_latches :
    (nextState (step (active [(1, 0x10)] (.adcAbs none none) 0 0x0001))).map (fun t => t.inst) =
      some (some (.adcAbs (some 0x10) none)) ∧
    (nextState (step (active [(2, 0x20)] (.staAbs (some 0x10) none) 1 0x0002))).map (fun t => t.inst) =
      some (some (.staAbs (some 0x10) (some 0x20))) := by decide
/-- 40_fetch_dispatch.md R115: the filler cycle decodes the byte it fetched. -/
theorem test_filler_decodes_next :
    (nextState (step (active [(3, 0xA9)] (.ldaAbs (some 0) (some 0)) 3 0x0003))).map
      (fun t => (t.inst, t.cycle, t.pc)) = some (some (.ldaImm none), 0, 0x0004) := by decide

/-! ## `advance` -/

/-- 95, EN-2 and L1-6 call 1. -/
theorem test_unrecognized_byte :
    (nextState (step (demo [(0, 0xFF)]))).map (fun t => (t.result, t.pc)) = some (.running false, 0x0001) := by decide
/-- 95, EN-8 and EN-9. -/
theorem test_pc_wraps :
    (nextState (step (active [] (.ldaImm none) 0 0xFFFF))).map (fun t => (t.pc, t.inst)) =
      some (0x0000, some (.ldaImm (some 0x33))) := by decide
theorem test_pc_overflow_faults :
    (nextState (step (faulting (active [] (.ldaImm none) 0 0xFFFF)))).map (fun t => (t.result, t.pc, t.dl, t.inst)) =
      some (.fatal (.pcOverflow 0xFFFF), 0xFFFF, 0x33, some (.ldaImm none)) := by decide
/-- 95, X-1: nothing changes but the record. -/
theorem test_fetch_raises :
    (nextState (step { demo [] with pc := 0x4010 })).map (fun t => (t.result, t.pc, t.dl, t.inst)) =
      some (.fatal (.deviceOffsetOutOfRange 0x4010 0x0010 2), 0x4010, 0x00, none) := by decide
/-- 95, X-2 call 4: the correction stays, `inst` and `cycle` are kept. -/
theorem test_handler_access_raises :
    (nextState (step (active [] (.ldaAbs (some 0x10) (some 0x40)) 2 0x0003))).map
        (fun t => (t.result, t.pc, t.cycle, t.a)) =
      some (.fatal (.deviceOffsetOutOfRange 0x4010 0x0010 2), 0x0003, 2, 0x00) := by decide
/-- 95, X-5: the handler alone, at a cycle its class does not declare. -/
theorem test_cycle_contract :
    (nextState (exec (.ldaImm (some 0x05)) (active [] (.ldaImm (some 0x05)) 2 0x0003))).map (fun t => t.result) =
      some (.fatal (.cycleContractViolation 0xA9 2 0x0003 0x00)) := by decide
/-- 95, EN-10: a call on a faulted state is refused. -/
theorem test_faulted_is_refused :
    step { demo [] with fault := some (.pcOverflow 0xFFFF) } = .refused (.afterFatal (.pcOverflow 0xFFFF)) := rfl

/-! ## Reset and placing -/

theorem test_reset_memory_is_canonical : State.reset.memoryWf = true := by decide
theorem test_reset_has_no_instance :
    State.reset.inst = none ∧ State.reset.cycle = 0 ∧ State.reset.fault = none ∧
    State.reset.devices = [{ capacity := 0x100, readOnly := false, contents := [] }] := by decide
/-- Reset is the assembly of 95, section 0: RAM0 registered over 0x0000 to 0x00FF. -/
theorem test_reset_is_assembled :
    State.reset = State.assemble Launch.reference ExtOpcodes.all .wrap
      [{ start := 0x0000, stop := 0x00FF, device := Device.referenceRam }] := by decide
/-- 20_memory.md R64: an overlapping range is accepted, and the earlier mapping keeps the address. -/
theorem test_register_overlap :
    let t := (demo [(0x50, 0x77)]).register { start := 0x0050, stop := 0x2000, device := Device.referenceRam }
    t.busRead 0x0050 = .ok 0x77 ∧ t.storage 0x2000 = some (4, 0x1FB0) ∧ t.ownsDevices = true := by decide
/-- The ill-owned lists: two mappings to one device, and a mapping to none. -/
theorem test_ownership_is_told_apart :
    { demo [] with config := (demo []).config.register { start := 0, stop := 0, device := 3 } }.ownsDevices = false ∧
    { demo [] with config := (demo []).config.register { start := 0, stop := 0, device := 4 } }.ownsDevices = false := by
  decide
theorem test_placed_word_runs_next :
    (nextState (step { State.reset.withFetchWord 16 0x05A9 with p := 0xFF })).map (fun t => (t.a, t.p, t.pc)) =
      some (0x05, 0x7D, 0x0003) := by decide
theorem test_placed_word_stands_in_memory :
    (State.reset.withFetchWord 24 0x20108D).programAt 0x0000 [0x8D, 0x10, 0x20] := by
  refine ⟨rfl, rfl, rfl, rfl, rfl, rfl, trivial⟩

/-! ## Witnesses: for each obligation with hypotheses, a state and operands that meet all of them, one for each clause -/

theorem witness_DecodeOfEncodeIsTheInstruction :
    (Instr.staAbs (some 0xFF) (some 0x00)).wf ExtOpcodes.empty = true ∧ Instr.clv.wf ExtOpcodes.all = true := by decide
theorem witness_DecodedBytesAreTheEncoding :
    decode ExtOpcodes.all [0xAD, 0x30, 0x00, 0xFF] = .ok (.ldaAbs (some 0x30) (some 0x00), [0xFF]) := by decide
theorem witness_DispatchTableHasTheseRows :
    (0x00 : Byte) ∉ [0xA9, 0x6D, 0x8D, 0x18, 0x58, 0xD8, 0xB8, 0xAD] := by decide

/-- Refused; fetch raise; overflow; active; idle. -/
theorem witness_StepIsFetchIncrementThenHandler_faulted :
    { demo [] with fault := some (.pcOverflow 0xFFFF) }.fault = some (.pcOverflow 0xFFFF) := rfl
theorem witness_StepIsFetchIncrementThenHandler_raise :
    (demo []).noFault ∧
    { demo [] with pc := 0x4010 }.busRead 0x4010 = .error (.deviceOffsetOutOfRange 0x4010 0x0010 2) := by decide
theorem witness_StepIsFetchIncrementThenHandler_overflow :
    (faulting (active [] .clc 0 0xFFFF)).noFault ∧ (faulting (active [] .clc 0 0xFFFF)).busRead 0xFFFF = .ok 0x33 ∧
    (faulting (active [] .clc 0 0xFFFF)).config.pcOverflow = .fault := by decide
theorem witness_StepIsFetchIncrementThenHandler_active :
    (active [] .clc 0 0xFFFF).noFault ∧ (active [] .clc 0 0xFFFF).busRead 0xFFFF = .ok 0x33 ∧
    (active [] .clc 0 0xFFFF).mayAdvance 0xFFFF ∧ (active [] .clc 0 0xFFFF).inst = some .clc := by decide
theorem witness_StepIsFetchIncrementThenHandler_idle :
    (faulting (demo [])).noFault ∧ (faulting (demo [])).busRead 0x0000 = .ok 0x00 ∧
    (faulting (demo [])).mayAdvance 0x0000 ∧ (faulting (demo [])).inst = none := by decide

/-- A call that continues, at the last cycle but one; one that finishes; one with no instance. -/
theorem witness_ResultsByCase_continues :
    ∃ t, step (active [] (.adcAbs (some 0x10) (some 0x00)) 2 0x0003) = .next t ∧ t.noFault ∧
      2 + 1 < (Instr.adcAbs (some 0x10) (some 0x00)).mode.cycles := ⟨_, rfl, rfl, by decide⟩
theorem witness_ResultsByCase_finishes :
    ∃ t, step (active [] (.adcAbs (some 0x10) (some 0x00)) 3 0x0003) = .next t ∧ t.noFault ∧
      3 + 1 = (Instr.adcAbs (some 0x10) (some 0x00)).mode.cycles := ⟨_, rfl, rfl, by decide⟩
theorem witness_ResultsByCase_idle : ∃ t, step (demo []) = .next t ∧ t.noFault ∧ (demo []).inst = none :=
  ⟨_, rfl, rfl, rfl⟩

theorem witness_FaultedStateHasNoStep :
    { demo [] with fault := some (.pcOverflow 0xFFFF) }.fault = some (.pcOverflow 0xFFFF) := rfl
theorem witness_UnrecognizedByteCostsOneCall :
    (demo [(0, 0xFF)]).noFault ∧ (demo [(0, 0xFF)]).inst = none ∧ (demo [(0, 0xFF)]).busRead 0x0000 = .ok 0xFF ∧
    (demo [(0, 0xFF)]).mayAdvance 0x0000 ∧ decodeOpcode (demo [(0, 0xFF)]).config.ext 0xFF = none := by decide
/-- No mappings (95, EN-7): every address reads 0x00. -/
theorem witness_UnrecognizedStreamRunsOn :
    let s := State.construct Launch.reference { Config.reference with mappings := [] } []
    s.noFault ∧ s.inst = none ∧ s.config.pcOverflow = .wrap ∧
    ∀ address, ∃ b, s.busRead address = .ok b ∧ decodeOpcode s.config.ext b = none :=
  ⟨rfl, rfl, rfl, fun _ => ⟨0x00, rfl, rfl⟩⟩

/-- 95, L1-4: `6D 10 00` at 0x0000; and `A9 33` across the top of the address space, under `wrap`. -/
theorem witness_ConsumedBytesBecomeTheInstruction :
    let s := demo [(0, 0x6D), (1, 0x10)]
    s.noFault ∧ s.coldStart ∧ (Instr.adcAbs (some 0x10) (some 0x00)).wf s.config.ext = true ∧
    encode (.adcAbs (some 0x10) (some 0x00)) = some [0x6D, 0x10, 0x00] ∧ s.programAt s.pc [0x6D, 0x10, 0x00] ∧
    ∀ k, k < [0x6D, 0x10, 0x00].length → s.mayAdvance (s.pc + BitVec.ofNat 16 k) :=
  ⟨rfl, ⟨rfl, rfl⟩, rfl, rfl, ⟨rfl, rfl, rfl, rfl, rfl, rfl, trivial⟩, fun _ _ h => nomatch h.2⟩
theorem witness_ConsumedBytesBecomeTheInstruction_implied :
    let s := faulting (demo [(0, 0x18)])
    s.noFault ∧ s.coldStart ∧ Instr.clc.wf s.config.ext = true ∧ encode .clc = some [0x18] ∧ s.programAt s.pc [0x18] ∧
    ∀ k, k < [0x18].length → s.mayAdvance (s.pc + BitVec.ofNat 16 k) :=
  ⟨rfl, ⟨rfl, rfl⟩, rfl, rfl, ⟨rfl, rfl, trivial⟩, by decide⟩

theorem witness_PcMovesByOneUnlessCorrected_moves :
    ∃ t, step (active [] .clc 1 0x0001) = .next t ∧ t.noFault ∧ correctsPc .clc 1 = false := ⟨_, rfl, rfl, rfl⟩
theorem witness_PcMovesByOneUnlessCorrected_corrects :
    ∃ t, step (active [] (.staAbs (some 0) (some 0)) 2 0xFFFF) = .next t ∧ t.noFault ∧
      correctsPc (.staAbs (some 0) (some 0)) 2 = true := ⟨_, rfl, rfl, rfl⟩

/-- Each fault, the first of the two `DeviceOffsetOutOfRange` clauses by a fetch, the second by a handler. -/
theorem witness_RaiseKeepsWhatCameBefore_contract :
    ∃ t, step (active [] .clc 2 0x0003) = .next t ∧ t.fault = some (.cycleContractViolation 0x18 2 0x0004 0x00) :=
  ⟨_, rfl, rfl⟩
theorem witness_RaiseKeepsWhatCameBefore_fetch :
    ∃ t, step { demo [] with pc := 0x4010 } = .next t ∧ t.fault = some (.deviceOffsetOutOfRange 0x4010 0x0010 2) :=
  ⟨_, rfl, rfl⟩
theorem witness_RaiseKeepsWhatCameBefore_handler :
    ∃ t, step (active [] (.staAbs (some 0x10) (some 0x40)) 2 0x0003) = .next t ∧
      t.fault = some (.deviceOffsetOutOfRange 0x4010 0x0010 2) := ⟨_, rfl, rfl⟩
theorem witness_RaiseKeepsWhatCameBefore_overflow :
    ∃ t, step (faulting (active [] .clc 0 0xFFFF)) = .next t ∧ t.fault = some (.pcOverflow 0xFFFF) := ⟨_, rfl, rfl⟩

theorem witness_OneFetchThenAtMostOneAccess :
    ∃ t, step (active [] (.staAbs (some 0x20) (some 0x00)) 2 0x0003) = .next t ∧
      t.traffic = [.read 0x0003 0x00, .write 0x0020 0x00] := ⟨_, rfl, rfl⟩

/-- Every cycle clause of the implied, immediate and absolute rules has a state. -/
theorem witness_cycle_clauses :
    (active [] .clc 0 0).cycle = 0 ∧ (active [] .clc 1 0).cycle = 1 ∧ 2 ≤ (active [] .clc 2 0).cycle ∧
    (active [] .clc 2 0).cycle = 2 ∧ (active [] .clc 3 0).cycle = 3 ∧ 4 ≤ (active [] .clc 4 0).cycle := by decide
theorem witness_AdcAddsWithCarry_reads :
    (active [(0x10, 0x01)] (.adcAbs (some 0x10) (some 0x00)) 2 3).cycle = 2 ∧
    (active [(0x10, 0x01)] (.adcAbs (some 0x10) (some 0x00)) 2 3).busRead (effectiveAddress 0x10 0x00) = .ok 0x01 := by
  decide
theorem witness_AdcAddsWithCarry_raises :
    (active [] (.adcAbs (some 0x10) (some 0x40)) 2 3).cycle = 2 ∧
    (active [] (.adcAbs (some 0x10) (some 0x40)) 2 3).busRead (effectiveAddress 0x10 0x40) =
      .error (.deviceOffsetOutOfRange 0x4010 0x0010 2) := by decide
theorem witness_LdaAbsolute_reads :
    (active [] (.ldaAbs (some 0x0F) (some 0x40)) 2 3).busRead (effectiveAddress 0x0F 0x40) = .ok 0x00 ∧
    (active [] (.ldaAbs (some 0x0F) (some 0x40)) 2 3).cycle = 2 := by decide
theorem witness_LdaAbsolute_raises :
    (active [] (.ldaAbs (some 0x10) (some 0x40)) 2 3).busRead (effectiveAddress 0x10 0x40) =
      .error (.deviceOffsetOutOfRange 0x4010 0x0010 2) ∧ (active [] (.ldaAbs (some 0x10) (some 0x40)) 2 3).cycle = 2 := by
  decide

/-- Unmapped; a read/write device at its last offset; a read-only device; the first offset beyond a device. -/
theorem witness_StaStoresTheAccumulator_unmapped :
    resolve (active [] (.staAbs (some 0x00) (some 0x20)) 2 3).config.mappings (effectiveAddress 0x00 0x20) = none := by
  decide
theorem witness_StaStoresTheAccumulator_stores :
    let s := active [] (.staAbs (some 0x0F) (some 0x40)) 2 3
    resolve s.config.mappings (effectiveAddress 0x0F 0x40) = some { start := 0x4000, stop := 0x40FF, device := 2 } ∧
    (effectiveAddress 0x0F 0x40 - 0x4000).toNat < (s.device 2).capacity ∧ (s.device 2).readOnly = false ∧
    s.memoryWf = true ∧ s.storage 0x000E ≠ s.storage (effectiveAddress 0x0F 0x40) := by decide
theorem witness_StaStoresTheAccumulator_read_only :
    let s := active [] (.staAbs (some 0x7F) (some 0x01)) 2 3
    resolve s.config.mappings (effectiveAddress 0x7F 0x01) = some { start := 0x0080, stop := 0x017F, device := 1 } ∧
    (effectiveAddress 0x7F 0x01 - 0x0080).toNat < (s.device 1).capacity ∧ (s.device 1).readOnly = true := by decide
theorem witness_StaStoresTheAccumulator_raises :
    let s := active [] (.staAbs (some 0x10) (some 0x40)) 2 3
    resolve s.config.mappings (effectiveAddress 0x10 0x40) = some { start := 0x4000, stop := 0x40FF, device := 2 } ∧
    (s.device 2).capacity ≤ (effectiveAddress 0x10 0x40 - 0x4000).toNat := by decide

theorem witness_UnsetScratchIsTheOnlyStop :
    exec (.ldaImm none) (active [] (.ldaImm none) 1 0) = .fault (.unsetScratch 0xA9 1) := rfl
theorem witness_InstructionFrames_store :
    (∃ t, exec (.staAbs (some 0x20) (some 0x00)) (active [] (.staAbs (some 0x20) (some 0x00)) 2 3) = .next t) ∧
    (active [] (.staAbs (some 0x20) (some 0x00)) 2 3).storage 0x0021 ≠
      (active [] (.staAbs (some 0x20) (some 0x00)) 2 3).storage (effectiveAddress 0x20 0x00) :=
  ⟨⟨_, rfl⟩, by decide⟩
theorem witness_InstructionFrames_no_store :
    (∃ t, exec .clc (active [] .clc 1 0) = .next t) ∧ Instr.clc.opcode ≠ 0x8D := ⟨⟨_, rfl⟩, by decide⟩

theorem witness_ImpliedInstanceTakesTwoCalls :
    let s := active [(1, 0xA9)] .clv 0 0x0001
    s.noFault ∧ s.inst = some .clv ∧ Instr.clv.mode = .implied ∧ s.cycle = 0 ∧ s.busRead s.pc = .ok 0xA9 ∧
    s.mayAdvance s.pc := by decide
theorem witness_LdaImmediateInstanceTakesTwoCalls :
    let s := active [] (.ldaImm none) 0 0xFFFF
    s.noFault ∧ s.inst = some (.ldaImm none) ∧ s.cycle = 0 ∧ s.busRead s.pc = .ok 0x33 ∧
    s.busRead (s.pc + 1) = .ok 0x00 ∧ s.mayAdvance s.pc ∧ s.mayAdvance (s.pc + 1) := by decide
theorem witness_AbsoluteReadInstancesTakeFourCalls :
    ∀ i ∈ [Instr.adcAbs none none, .ldaAbs none none],
      let s := active [(1, 0x30), (0x30, 0x80)] i 0 0x0001
      s.noFault ∧ s.cycle = 0 ∧ s.busRead s.pc = .ok 0x30 ∧ s.busRead (s.pc + 1) = .ok 0x00 ∧
      s.busRead (s.pc + 2) = .ok 0x00 ∧ s.busRead (effectiveAddress 0x30 0x00) = .ok 0x80 ∧
      s.mayAdvance s.pc ∧ s.mayAdvance (s.pc + 1) ∧ s.mayAdvance (s.pc + 2) ∧ s.inst = some i := by decide
/-- The store over the next opcode (95, S-5), and one elsewhere. -/
theorem witness_StoreIsSeenByTheNextOpcodeFetch_same :
    let s := active [(1, 0x03), (3, 0xFF)] (.staAbs none none) 0 0x0001
    s.noFault ∧ s.memoryWf = true ∧ s.inst = some (.staAbs none none) ∧ s.cycle = 0 ∧ s.busRead s.pc = .ok 0x03 ∧
    s.busRead (s.pc + 1) = .ok 0x00 ∧ s.busRead (s.pc + 2) = .ok 0xFF ∧
    s.mayAdvance s.pc ∧ s.mayAdvance (s.pc + 1) ∧ s.mayAdvance (s.pc + 2) ∧
    resolve s.config.mappings (effectiveAddress 0x03 0x00) = some { start := 0x0000, stop := 0x00FF, device := 0 } ∧
    (effectiveAddress 0x03 0x00 - 0x0000).toNat < (s.device 0).capacity ∧ (s.device 0).readOnly = false ∧
    s.storage (s.pc + 2) = s.storage (effectiveAddress 0x03 0x00) := by decide
theorem witness_StoreIsSeenByTheNextOpcodeFetch_elsewhere :
    let s := active [(1, 0x04), (3, 0xFF)] (.staAbs none none) 0 0x0001
    s.noFault ∧ s.memoryWf = true ∧ s.inst = some (.staAbs none none) ∧ s.cycle = 0 ∧ s.busRead s.pc = .ok 0x04 ∧
    s.busRead (s.pc + 1) = .ok 0x00 ∧ s.busRead (s.pc + 2) = .ok 0xFF ∧
    s.mayAdvance s.pc ∧ s.mayAdvance (s.pc + 1) ∧ s.mayAdvance (s.pc + 2) ∧
    resolve s.config.mappings (effectiveAddress 0x04 0x00) = some { start := 0x0000, stop := 0x00FF, device := 0 } ∧
    (effectiveAddress 0x04 0x00 - 0x0000).toNat < (s.device 0).capacity ∧ (s.device 0).readOnly = false ∧
    s.storage (s.pc + 2) ≠ s.storage (effectiveAddress 0x04 0x00) := by decide

theorem witness_FlagsChangeOnlyInTheirHandlers :
    ∃ t, step { active [] (.ldaImm (some 0)) 1 0 with p := 0x80 } = .next t ∧ t.p = 0x02 := ⟨_, rfl, rfl⟩
theorem witness_OnlyCarryIsEverRead : testFlag .carry 0xFE = testFlag .carry (demo []).p := by decide
theorem witness_BreakAndBitFiveKeepTheirValues : ∃ t, runFor 3 (demo [(0, 0x18)]) = .next t := ⟨_, rfl⟩
theorem witness_LatchesDoNotAffectARun :
    sameButLatches (demo []) { demo [] with adh := 0xFF, adl := 0x01, dl := 0x80 } := rfl
theorem witness_BusAccessesFollowTheDecoder_unmapped : resolve (demo []).config.mappings 0x2000 = none := by decide
theorem witness_BusAccessesFollowTheDecoder_mapped :
    resolve (demo []).config.mappings 0x400F = some { start := 0x4000, stop := 0x40FF, device := 2 } ∧
    ((0x400F : Addr) - 0x4000).toNat < ((demo []).device 2).capacity := by decide
theorem witness_BusAccessesFollowTheDecoder_beyond :
    resolve (demo []).config.mappings 0x4010 = some { start := 0x4000, stop := 0x40FF, device := 2 } ∧
    ((demo []).device 2).capacity ≤ ((0x4010 : Addr) - 0x4000).toNat := by decide

/-- A read/write device reached by two mappings, so that the other address is another address of the same byte. -/
theorem witness_WriteThenRead_same :
    let s := (demo []).plugByte 0x2000 0x00
    let s := { s with config := s.config.register { start := 0x2001, stop := 0x2001, device := 4 } }
    s.memoryWf = true ∧ (∃ t, s.busWrite 0x2000 0x77 = .ok t) ∧
    resolve s.config.mappings 0x2000 = some { start := 0x2000, stop := 0x2000, device := 4 } ∧
    (s.device 4).readOnly = false ∧ s.storage 0x2001 = s.storage 0x2000 :=
  ⟨by decide, ⟨_, rfl⟩, by decide, by decide, by decide⟩
theorem witness_WriteThenRead_read_only :
    (demo []).memoryWf = true ∧ (∃ t, (demo []).busWrite 0x0100 0x99 = .ok t) ∧
    resolve (demo []).config.mappings 0x0100 = some { start := 0x0080, stop := 0x017F, device := 1 } ∧
    ((demo []).device 1).readOnly = true ∧ (demo []).storage 0x0101 ≠ (demo []).storage 0x0100 :=
  ⟨by decide, ⟨_, rfl⟩, by decide, by decide, by decide⟩

theorem witness_WellFormedConfigNeverRaises : (fitting []).wellFormedConfig = true := by decide
theorem witness_ill_formed_config_is_told_apart : (demo []).wellFormedConfig = false := by decide
theorem witness_ConfigurationIsFixed : (∃ t, runFor 3 (demo [(0, 0xA9)]) = .next t) ∧
    ((demo []).device 1).readOnly = true := ⟨⟨_, rfl⟩, by decide⟩
theorem witness_OnlyStaCycleTwoChangesDevices :
    ∃ t, step { active [] (.staAbs (some 0x20) (some 0x00)) 2 3 with a := 0x01 } = .next t ∧
      t.devices ≠ (active [] (.staAbs (some 0x20) (some 0x00)) 2 3).devices := ⟨_, rfl, by decide⟩
theorem witness_StepKeepsEngineWf :
    (active [] (.adcAbs (some 0x10) none) 1 3).engineWf = true ∧
    ∃ t, step (active [] (.adcAbs (some 0x10) none) 1 3) = .next t := ⟨by decide, _, rfl⟩
theorem witness_StepKeepsMemoryWf :
    { active [] (.staAbs (some 0x20) (some 0x00)) 2 3 with a := 0x01 }.memoryWf = true ∧
    ∃ t, step { active [] (.staAbs (some 0x20) (some 0x00)) 2 3 with a := 0x01 } = .next t := ⟨by decide, _, rfl⟩
theorem witness_CycleContractIsNeverViolated :
    (active [] (.ldaAbs (some 0x10) (some 0x00)) 3 3).engineWf = true ∧
    ∃ t, step (active [] (.ldaAbs (some 0x10) (some 0x00)) 3 3) = .next t := ⟨by decide, _, rfl⟩
theorem witness_WellFormedRunsNeverStop :
    (fitting [(0, 0x18)]).engineWf = true ∧ (fitting [(0, 0x18)]).wellFormedConfig = true ∧
    (fitting [(0, 0x18)]).config.pcOverflow = .wrap ∧ (fitting [(0, 0x18)]).noFault := by decide
theorem witness_PlacedWordRunsNext :
    State.reset.config.ext = ExtOpcodes.all ∧ State.reset.config.pcOverflow = .wrap ∧
    decodeTableWord 24 0x20108D = some (.staAbs (some 0x10) (some 0x20)) := by decide
theorem witness_RegisteredMappingIsLast :
    (demo []).ownsDevices = true ∧ 3 ≠ (demo []).devices.length ∧ resolve (demo []).config.mappings 0x2000 = none := by
  decide
theorem witness_AssemblyRegistersInOrder :
    [({ start := 0x0000, stop := 0x00FF, device := Device.referenceRam } : Registration)][0]? =
      some { start := 0x0000, stop := 0x00FF, device := Device.referenceRam } := by decide
theorem witness_StepKeepsOwnership :
    { active [] (.staAbs (some 0x20) (some 0x00)) 2 3 with a := 0x01 }.ownsDevices = true ∧
    ∃ t, step { active [] (.staAbs (some 0x20) (some 0x00)) 2 3 with a := 0x01 } = .next t := ⟨by decide, _, rfl⟩
theorem witness_OwnedByteHasOneAddress :
    (demo []).ownsDevices = true ∧ (resolve (demo []).config.mappings 0x017F).isSome = true := by decide

end Sys2Proof.Tests
end

section
/-! SUPPORT. A simulation between two runs whose states agree in every field the block reads, but for the bits of P
other than C, X, Y, SP and the latches. What the two runs' P have in common, and their X, Y and SP, are parameters, so
that the three noninterference statements follow from one step lemma. -/

namespace Sys2Proof.Machine

open Sys2Proof

/-- X, Y and SP, which no rule reads or writes (10_state.md R22, R23). -/
def State.unusedRegisters (s : State) : Byte × Byte × Byte := (s.x, s.y, s.sp)

/-- A relation of two values of P that the flag operations keep and that fixes C, the one flag any rule reads
(10_state.md R27). -/
structure KeptByFlagOperations (P : Byte → Byte → Prop) : Prop where
  carry : ∀ {p q}, P p q → testFlag .carry p = testFlag .carry q
  assign : ∀ (f : Flag) (cond : Bool) {p q}, P p q → P (assignFlag f cond p) (assignFlag f cond q)

/-- Equal in every field but P, X, Y, SP and the latches, with P related by `P` and X, Y and SP by `X`. -/
structure Alike (P : Byte → Byte → Prop) (X : Byte × Byte × Byte → Byte × Byte × Byte → Prop) (s u : State) :
    Prop where
  a : s.a = u.a
  pc : s.pc = u.pc
  inst : s.inst = u.inst
  cycle : s.cycle = u.cycle
  fault : s.fault = u.fault
  config : s.config = u.config
  devices : s.devices = u.devices
  traffic : s.traffic = u.traffic
  flags : P s.p u.p
  unused : X s.unusedRegisters u.unusedRegisters

/-- Alike, and with the same DL: what holds of two states from the fetch of a call to its end. -/
structure FetchedAlike (P : Byte → Byte → Prop) (X : Byte × Byte × Byte → Byte × Byte × Byte → Prop) (s u : State) :
    Prop extends Alike P X s u where
  dl : s.dl = u.dl

/-- The same kind of outcome: related next states, or the same reason to stop. -/
inductive OutcomesRelated (R : State → State → Prop) :
    Host.Outcome State Fault Refusal → Host.Outcome State Fault Refusal → Prop where
  | next {s u : State} (h : R s u) : OutcomesRelated R (.next s) (.next u)
  | fault (r : Fault) : OutcomesRelated R (.fault r) (.fault r)
  | refused (r : Refusal) : OutcomesRelated R (.refused r) (.refused r)

/-- The same answer of a cycle handler, with related states. -/
inductive AnswersRelated (R : State → State → Prop) : Handled → Handled → Prop where
  | continued (i : Instr) {s u : State} (h : R s u) : AnswersRelated R (.continued i s) (.continued i u)
  | finished {s u : State} (h : R s u) : AnswersRelated R (.finished s) (.finished u)
  | raised (info : FaultInfo) {s u : State} (h : R s u) : AnswersRelated R (.raised info s) (.raised info u)
  | unset (r : Fault) : AnswersRelated R (.unset r) (.unset r)

/-- Two accesses that raise the same fault, or answer related states. -/
inductive AccessesRelated (R : State → State → Prop) : Except FaultInfo State → Except FaultInfo State → Prop where
  | ok {s u : State} (h : R s u) : AccessesRelated R (.ok s) (.ok u)
  | error (info : FaultInfo) : AccessesRelated R (.error info) (.error info)

/-! ## Runs -/

/-- Related outcomes look the same through views that related states look the same through. -/
theorem OutcomesRelated.viewOutcome_eq {R : State → State → Prop} {o o' : Host.Outcome State Fault Refusal}
    (h : OutcomesRelated R o o') {f g : State → State} (hfg : ∀ s u, R s u → f s = g u) :
    viewOutcome f o = viewOutcome g o' := by
  cases h with
  | next h => exact congrArg Host.Outcome.next (hfg _ _ h)
  | fault r => rfl
  | refused r => rfl

/-- A relation that every step keeps relates whole runs. -/
theorem runFor_simulation {R : State → State → Prop}
    (hstep : ∀ s u, R s u → OutcomesRelated R (step s) (step u)) (n : Nat) :
    ∀ s u, R s u → OutcomesRelated R (runFor n s) (runFor n u) := by
  induction n with
  | zero => exact fun s u h => .next h
  | succ n ih =>
    intro s u h
    have hsu := hstep s u h
    rw [runFor_succ, runFor_succ]
    generalize step s = o at hsu ⊢
    generalize step u = o' at hsu ⊢
    cases hsu with
    | next h' => exact ih _ _ h'
    | fault r => exact .fault r
    | refused r => exact .refused r

/-! ## The named updates keep the relation -/

section
variable {P : Byte → Byte → Prop} {X : Byte × Byte × Byte → Byte × Byte × Byte → Prop} {s u : State}

theorem Alike.busRead (h : Alike P X s u) (address : Addr) : s.busRead address = u.busRead address :=
  busRead_congr h.config h.devices address

theorem Alike.device (h : Alike P X s u) (id : Nat) : s.device id = u.device id := by
  simp only [State.device, h.devices]

theorem Alike.raiseFault (h : Alike P X s u) (info : FaultInfo) : Alike P X (s.raiseFault info) (u.raiseFault info) :=
  { h with fault := rfl }

theorem Alike.withTraffic (h : Alike P X s u) (l : List Transaction) : Alike P X (s.withTraffic l) (u.withTraffic l) :=
  { h with traffic := rfl }

theorem Alike.latchFetch (h : Alike P X s u) (b : Byte) : FetchedAlike P X (s.latchFetch b) (u.latchFetch b) :=
  { h with dl := rfl, traffic := by simp only [State.latchFetch_traffic, h.pc] }

theorem FetchedAlike.incrementPc (h : FetchedAlike P X s u) : FetchedAlike P X s.incrementPc u.incrementPc :=
  { h with pc := congrArg (· + 1) h.pc }

theorem FetchedAlike.correctPc (h : FetchedAlike P X s u) : FetchedAlike P X s.correctPc u.correctPc :=
  { h with pc := congrArg (· - 1) h.pc }

theorem FetchedAlike.dispatchNext (h : FetchedAlike P X s u) : FetchedAlike P X s.dispatchNext u.dispatchNext :=
  { h with inst := by simp only [State.dispatchNext_inst, h.config, h.dl], cycle := rfl }

theorem FetchedAlike.continueWith (h : FetchedAlike P X s u) (i : Instr) :
    FetchedAlike P X (s.continueWith i) (u.continueWith i) :=
  { h with inst := rfl, cycle := congrArg (· + 1) h.cycle }

theorem FetchedAlike.withA (h : FetchedAlike P X s u) (v : Byte) : FetchedAlike P X (s.withA v) (u.withA v) :=
  { h with a := rfl }

theorem FetchedAlike.withP (h : FetchedAlike P X s u) {p q : Byte} (hpq : P p q) :
    FetchedAlike P X (s.withP p) (u.withP q) :=
  { h with flags := hpq }

theorem FetchedAlike.withTraffic (h : FetchedAlike P X s u) (l : List Transaction) :
    FetchedAlike P X (s.withTraffic l) (u.withTraffic l) :=
  { h with traffic := rfl }

theorem FetchedAlike.withDevice (h : FetchedAlike P X s u) (id : Nat) (d : Device) :
    FetchedAlike P X (s.withDevice id d) (u.withDevice id d) :=
  { h with devices := congrArg (·.set id d) h.devices }

theorem FetchedAlike.busWrite (h : FetchedAlike P X s u) (address : Addr) (v : Byte) :
    AccessesRelated (FetchedAlike P X) (s.busWrite address v) (u.busWrite address v) := by
  unfold State.busWrite
  rw [← h.config]
  cases resolve s.config.mappings address with
  | none => exact .ok h
  | some m =>
    dsimp only
    rw [← h.device m.device]
    split
    · exact .ok (h.withDevice _ _)
    · exact .error _

/-! ## A store, the handlers and the reaction keep the relation -/

theorem FetchedAlike.staOperation (h : FetchedAlike P X s u) (ea : Addr) :
    AccessesRelated (FetchedAlike P X) (staOperation ea s) (staOperation ea u) := by
  rw [staOperation_eq, staOperation_eq, ← h.a, ← h.traffic]
  have hw := h.busWrite ea s.a
  generalize s.busWrite ea s.a = o at hw ⊢
  generalize u.busWrite ea s.a = o' at hw ⊢
  cases hw with
  | ok h' => exact .ok (h'.withTraffic _)
  | error info => exact .error info

theorem FetchedAlike.cycleContract (h : FetchedAlike P X s u) (op : Byte) :
    AnswersRelated (FetchedAlike P X) (cycleContract op s) (cycleContract op u) := by
  unfold Sys2Proof.Machine.cycleContract
  rw [h.cycle, h.pc, h.dl]
  exact .raised _ h

theorem FetchedAlike.impliedHandler (h : FetchedAlike P X s u) (i : Instr) {effect : State → State}
    (heffect : FetchedAlike P X (effect s) (effect u)) :
    AnswersRelated (FetchedAlike P X) (impliedHandler i effect s) (impliedHandler i effect u) := by
  unfold Sys2Proof.Machine.impliedHandler
  rw [← h.cycle]
  split
  · exact .continued i h.correctPc
  · exact .finished heffect
  · exact h.cycleContract _

theorem FetchedAlike.immediateHandler (h : FetchedAlike P X s u) (make : Option Byte → Instr) (value : Option Byte)
    {commit : Byte → State → State} (hcommit : ∀ v, FetchedAlike P X (commit v s) (commit v u)) :
    AnswersRelated (FetchedAlike P X) (immediateHandler make value commit s)
      (immediateHandler make value commit u) := by
  unfold Sys2Proof.Machine.immediateHandler
  rw [← h.cycle, ← h.dl]
  split
  · exact .continued _ h
  · cases value with
    | some v => exact .finished (hcommit v)
    | none => exact .unset _
  · exact h.cycleContract _

theorem FetchedAlike.absoluteHandler (h : FetchedAlike P X s u) (make : Option Byte → Option Byte → Instr)
    (lo hi : Option Byte) {operation : Addr → State → Except FaultInfo State}
    (hoperation : ∀ ea, AccessesRelated (FetchedAlike P X) (operation ea s.correctPc) (operation ea u.correctPc)) :
    AnswersRelated (FetchedAlike P X) (absoluteHandler make lo hi operation s)
      (absoluteHandler make lo hi operation u) := by
  unfold Sys2Proof.Machine.absoluteHandler
  rw [← h.cycle, ← h.dl]
  split
  · exact .continued _ h
  · exact .continued _ h
  · cases lo with
    | none => exact .unset _
    | some l =>
      cases hi with
      | none => exact .unset _
      | some b =>
        have ho := hoperation (effectiveAddress l b)
        dsimp only
        generalize operation (effectiveAddress l b) s.correctPc = o at ho ⊢
        generalize operation (effectiveAddress l b) u.correctPc = o' at ho ⊢
        cases ho with
        | ok h' => exact .continued _ h'
        | error info => exact .raised info h.correctPc
  · exact .finished h
  · exact h.cycleContract _

/-- The engine reacts alike to the same answer. -/
theorem AnswersRelated.react {a b : Handled} (h : AnswersRelated (FetchedAlike P X) a b) :
    OutcomesRelated (Alike P X) (react a) (react b) := by
  cases h with
  | continued i h => exact .next (h.continueWith i).toAlike
  | finished h => exact .next h.dispatchNext.toAlike
  | raised info h => exact .next (h.raiseFault info)
  | unset r => exact .fault r

/-! ## The flag computations and the step keep the relation -/

variable (hP : KeptByFlagOperations P)
include hP

theorem KeptByFlagOperations.clear (f : Flag) {p q : Byte} (h : P p q) : P (clearFlag f p) (clearFlag f q) :=
  hP.assign f false h

theorem KeptByFlagOperations.loadFlags (v : Byte) {p q : Byte} (h : P p q) :
    P (loadFlags v p) (loadFlags v q) :=
  hP.assign _ _ (hP.assign _ _ h)

theorem KeptByFlagOperations.adcFlags (a m : Byte) {p q : Byte} (h : P p q) :
    P (adcFlags a m p) (adcFlags a m q) := by
  unfold Sys2Proof.Machine.adcFlags
  rw [hP.carry h]
  exact hP.assign _ _ (hP.assign _ _ (hP.assign _ _ (hP.assign _ _ h)))

theorem FetchedAlike.loadAccumulator (h : FetchedAlike P X s u) (v : Byte) :
    FetchedAlike P X (loadAccumulator v s) (loadAccumulator v u) :=
  (h.withA v).withP (hP.loadFlags v h.flags)

theorem FetchedAlike.adcOperation (h : FetchedAlike P X s u) (ea : Addr) :
    AccessesRelated (FetchedAlike P X) (adcOperation ea s) (adcOperation ea u) := by
  rw [adcOperation_eq, adcOperation_eq, ← h.busRead, ← h.a, ← h.traffic, ← hP.carry h.flags]
  cases s.busRead ea with
  | error info => exact .error info
  | ok m => exact .ok (((h.withTraffic _).withA _).withP (hP.adcFlags _ m h.flags))

theorem FetchedAlike.ldaAbsOperation (h : FetchedAlike P X s u) (ea : Addr) :
    AccessesRelated (FetchedAlike P X) (ldaAbsOperation ea s) (ldaAbsOperation ea u) := by
  rw [ldaAbsOperation_eq, ldaAbsOperation_eq, ← h.busRead, ← h.traffic]
  cases s.busRead ea with
  | error info => exact .error info
  | ok m => exact .ok ((h.withTraffic _).loadAccumulator hP m)

theorem FetchedAlike.exec (h : FetchedAlike P X s u) (i : Instr) :
    OutcomesRelated (Alike P X) (exec i s) (exec i u) := by
  have hclear (j : Instr) (f : Flag) :=
    h.impliedHandler j (effect := fun s => s.withP (clearFlag f s.p)) (h.withP (hP.clear f h.flags))
  cases i with
  | ldaImm value => exact (h.immediateHandler .ldaImm value (h.loadAccumulator hP)).react
  | adcAbs lo hi => exact (h.absoluteHandler .adcAbs lo hi (h.correctPc.adcOperation hP)).react
  | staAbs lo hi => exact (h.absoluteHandler .staAbs lo hi h.correctPc.staOperation).react
  | clc => exact (hclear .clc .carry).react
  | cli => exact (hclear .cli .irqDisable).react
  | cld => exact (hclear .cld .decimalMode).react
  | clv => exact (hclear .clv .overflow).react
  | ldaAbs lo hi => exact (h.absoluteHandler .ldaAbs lo hi (h.correctPc.ldaAbsOperation hP)).react

/-- One call from states alike ends alike: DL is written by the fetch before anything reads it (10_state.md R25). -/
theorem Alike.step (h : Alike P X s u) : OutcomesRelated (Alike P X) (step s) (step u) := by
  rcases step_cases s with ⟨info, hf, hs⟩ | ⟨hf, info, hr, hs⟩ | ⟨hf, b, hr, hm, hs⟩ | ⟨hf, b, i, hr, hm, hi, hs⟩ |
    ⟨hf, b, hr, hm, hi, hs⟩ <;> rw [hs]
  · rw [step_of_fault (h.fault ▸ hf)]
    exact .refused _
  all_goals rw [h.busRead, h.pc] at hr
  · rw [step_of_raise (h.fault ▸ hf) hr]
    exact .next ((h.withTraffic []).raiseFault info)
  all_goals rw [State.mayAdvance, h.config, h.pc] at hm
  · rw [step_of_overflow (h.fault ▸ hf) hr hm, h.pc]
    exact .next ((h.latchFetch b).raiseFault _)
  · rw [step_of_active (h.fault ▸ hf) hr hm (h.inst ▸ hi)]
    exact (h.latchFetch b).incrementPc.exec hP i
  · rw [step_of_idle (h.fault ▸ hf) hr hm (h.inst ▸ hi)]
    exact .next (h.latchFetch b).incrementPc.dispatchNext.toAlike

/-- Runs from states alike end alike. -/
theorem Alike.runFor (h : Alike P X s u) (n : Nat) : OutcomesRelated (Alike P X) (runFor n s) (runFor n u) :=
  runFor_simulation (fun _ _ h => h.step hP) n s u h

end

end Sys2Proof.Machine
end

section
/-! PROOFS. The three noninterference statements, each `Alike.runFor` at its own relations of P and of X, Y and SP. -/

namespace Sys2Proof.Machine

open Sys2Proof

/-- Two values of P with the same C. -/
def sameCarry (p q : Byte) : Prop := testFlag .carry p = testFlag .carry q

theorem keptByFlagOperations_eq : KeptByFlagOperations Eq where
  carry := congrArg _
  assign _ _ := congrArg _

theorem keptByFlagOperations_sameCarry : KeptByFlagOperations sameCarry where
  carry := id
  assign f cond _ _ h := by simp only [sameCarry, testFlag_assignFlag, show testFlag .carry _ = _ from h]

/-- Equal but for the latches is alike with P, X, Y and SP equal. -/
theorem sameButLatches_iff_alike {s u : State} : sameButLatches s u ↔ Alike Eq Eq s u := by
  simp only [sameButLatches, State.hideLatches, State.mk.injEq, true_and]
  constructor
  · rintro ⟨ha, hx, hy, hsp, hp, hpc, hinst, hcycle, hfault, hconfig, hdevices, htraffic⟩
    exact ⟨ha, hpc, hinst, hcycle, hfault, hconfig, hdevices, htraffic, hp,
      by simp only [State.unusedRegisters, hx, hy, hsp]⟩
  · rintro ⟨ha, hpc, hinst, hcycle, hfault, hconfig, hdevices, htraffic, hp, hunused⟩
    obtain ⟨hx, hy, hsp⟩ := by simpa only [State.unusedRegisters, Prod.mk.injEq] using hunused
    exact ⟨ha, hx, hy, hsp, hp, hpc, hinst, hcycle, hfault, hconfig, hdevices, htraffic⟩

/-- Settles O34: the relation of the simulation is `sameButLatches` itself. -/
theorem latchesDoNotAffectARun : Obligations.LatchesDoNotAffectARun := by
  unfold Obligations.LatchesDoNotAffectARun
  intro n s u h
  have hrun := (sameButLatches_iff_alike.mp h).runFor keptByFlagOperations_eq n
  exact hrun.viewOutcome_eq fun _ _ => sameButLatches_iff_alike.mpr

/-- Settles O31: of P, the simulation keeps only that C is the same. -/
theorem onlyCarryIsEverRead : Obligations.OnlyCarryIsEverRead := by
  unfold Obligations.OnlyCarryIsEverRead
  intro n s p hp
  have h : Alike sameCarry Eq { s with p := p } s :=
    ⟨rfl, rfl, rfl, rfl, rfl, rfl, rfl, rfl, hp, rfl⟩
  exact (h.runFor keptByFlagOperations_sameCarry n).viewOutcome_eq fun _ _ ht =>
    sameButLatches_iff_alike.mpr { ht with flags := rfl }

/-- Settles O33: of X, Y and SP, the simulation keeps that one run has the values given. -/
theorem xYAndSpAreNeverUsed : Obligations.XYAndSpAreNeverUsed := by
  unfold Obligations.XYAndSpAreNeverUsed
  intro n s x y sp
  have h : Alike Eq (fun v _ => v = (x, y, sp)) { s with x := x, y := y, sp := sp } s :=
    ⟨rfl, rfl, rfl, rfl, rfl, rfl, rfl, rfl, rfl, rfl⟩
  exact (h.runFor keptByFlagOperations_eq n).viewOutcome_eq fun _ _ ht =>
    sameButLatches_iff_alike.mpr { ht with unused := ht.unused }

end Sys2Proof.Machine
end

section
/-! SUPPORT. The inversion of `step`, and the step lemma of the engine's invariant (10_state.md R34, R35). -/

namespace Sys2Proof.Machine

open Sys2Proof

/-- The inversion of `step`: a next state comes from a state without a fault, and is left by a raise of the fetch, a
raise of the increment, `exec` of the active instruction, or the idle decode. -/
theorem step_next {s t : State} (h : step s = .next t) :
    s.fault = none ∧
    ((∃ info, s.busRead s.pc = .error info ∧ t = (s.withTraffic []).raiseFault info) ∨
      (∃ b, s.busRead s.pc = .ok b ∧ ¬ s.mayAdvance s.pc ∧ t = (s.latchFetch b).raiseFault (.pcOverflow s.pc)) ∨
      (∃ b i, s.busRead s.pc = .ok b ∧ s.mayAdvance s.pc ∧ s.inst = some i ∧
        exec i (s.latchFetch b).incrementPc = .next t) ∨
      (∃ b, s.busRead s.pc = .ok b ∧ s.mayAdvance s.pc ∧ s.inst = none ∧
        t = (s.latchFetch b).incrementPc.dispatchNext)) := by
  rcases step_cases s with ⟨info, -, hs⟩ | ⟨hf, info, hr, hs⟩ | ⟨hf, b, hr, hm, hs⟩ | ⟨hf, b, i, hr, hm, hi, hs⟩ |
    ⟨hf, b, hr, hm, hi, hs⟩ <;> rw [hs] at h
  · cases h
  · cases h; exact ⟨hf, .inl ⟨info, hr, rfl⟩⟩
  · cases h; exact ⟨hf, .inr (.inl ⟨b, hr, hm, rfl⟩)⟩
  · exact ⟨hf, .inr (.inr (.inl ⟨b, i, hr, hm, hi, h⟩))⟩
  · cases h; exact ⟨hf, .inr (.inr (.inr ⟨b, hr, hm, hi, rfl⟩))⟩

/-- A write leaves the state it was given with other devices. -/
theorem busWrite_devices_only {s t : State} {address : Addr} {v : Byte} (h : s.busWrite address v = .ok t) :
    ∃ devices, t = { s with devices := devices } :=
  ⟨_, busWrite_eq h⟩

/-! ## The engine's invariant -/

theorem engineWf_of_active {s : State} {i : Instr} (h : s.inst = some i) :
    s.engineWf = (i.configured s.config.ext && readyAt i s.cycle) := by
  simp only [State.engineWf, h]

/-- A decode leaves a fresh instruction of a configured row, or none, at cycle 0. -/
theorem engineWf_dispatchNext (s : State) : s.dispatchNext.engineWf = true := by
  cases h : decodeOpcode s.config.ext s.dl with
  | none => simp [State.engineWf, h]
  | some i =>
    obtain ⟨hconfigured, hready, -⟩ := decodeOpcode_some h
    simp [State.engineWf, h, hconfigured, hready]

/-- An instruction that continues must be ready for the next cycle. -/
theorem engineWf_continueWith {s : State} {i : Instr} {cycle : Nat} (hc : i.configured s.config.ext = true)
    (hcycle : s.cycle = cycle) (hr : readyAt i (cycle + 1) = true) : (s.continueWith i).engineWf = true := by
  simp [State.engineWf, hc, hcycle, hr]

@[simp] theorem configured_latchLo (ext : ExtOpcodes) (b : Byte) (i : Instr) :
    (latchLo b i).configured ext = i.configured ext := by
  cases i <;> rfl

@[simp] theorem configured_latchHi (ext : ExtOpcodes) (b : Byte) (i : Instr) :
    (latchHi b i).configured ext = i.configured ext := by
  cases i <;> rfl

theorem readyAt_one_of_implied {i : Instr} (hm : i.mode = .implied) : readyAt i 1 = true := by
  cases i <;> simp_all [Instr.mode, readyAt]

/-- Cycle 0 sets the low address byte. -/
theorem readyAt_latchLo {i : Instr} (hm : i.mode = .absolute) (h : readyAt i 0 = true) (b : Byte) :
    readyAt (latchLo b i) 1 = true := by
  cases i <;> simp_all [Instr.mode, readyAt, latchLo]

/-- Cycle 1 sets the high address byte. -/
theorem readyAt_latchHi {i : Instr} (hm : i.mode = .absolute) (h : readyAt i 1 = true) (b : Byte) :
    readyAt (latchHi b i) 2 = true := by
  cases i <;> simp_all [Instr.mode, readyAt, latchHi]

/-- Cycle 2 sets no scratch. -/
theorem readyAt_three {i : Instr} (hm : i.mode = .absolute) (h : readyAt i 2 = true) : readyAt i 3 = true := by
  cases i <;> simp_all [Instr.mode, readyAt]

/-- `exec` of the active instruction keeps the invariant. -/
theorem exec_engineWf {i : Instr} {s t : State} (hi : s.inst = some i) (hwf : s.engineWf = true)
    (h : exec i s = .next t) : t.engineWf = true := by
  obtain ⟨hconfigured, hready⟩ : i.configured s.config.ext = true ∧ readyAt i s.cycle = true := by
    simpa [engineWf_of_active hi] using hwf
  have hthree (hm : i.mode = .absolute) (hc : s.cycle = 2) : readyAt i 3 = true := readyAt_three hm (hc ▸ hready)
  cases exec_next h with
  | impliedCorrects hm hc => exact engineWf_continueWith hconfigured hc (readyAt_one_of_implied hm)
  | impliedClears => exact engineWf_dispatchNext _
  | immediateLatches value hi' hc => exact engineWf_continueWith rfl hc rfl
  | immediateCommits => exact engineWf_dispatchNext _
  | absoluteLatchesLo hm hc =>
    exact engineWf_continueWith ((configured_latchLo ..).trans hconfigured) hc (readyAt_latchLo hm (hc ▸ hready) _)
  | absoluteLatchesHi hm hc =>
    exact engineWf_continueWith ((configured_latchHi ..).trans hconfigured) hc (readyAt_latchHi hm (hc ▸ hready) _)
  | adcAdds l h m hi' hc => exact engineWf_continueWith hconfigured hc (hthree (hi' ▸ rfl) hc)
  | ldaLoads l h m hi' hc => exact engineWf_continueWith hconfigured hc (hthree (hi' ▸ rfl) hc)
  | staStores l h u hi' hc hw =>
    obtain ⟨devices, rfl⟩ := busWrite_devices_only hw
    exact engineWf_continueWith hconfigured hc (hthree (hi' ▸ rfl) hc)
  | accessRaises => exact hwf
  | absoluteFills => exact engineWf_dispatchNext _
  | undeclaredCycle => exact hwf

/-- Settles O45: a raise before the handler keeps the instruction and the cycle index, `exec` keeps the invariant, and
the idle decode establishes it. -/
theorem stepKeepsEngineWf : Obligations.StepKeepsEngineWf := by
  unfold Obligations.StepKeepsEngineWf
  intro s t hwf h
  obtain ⟨-, ⟨info, -, rfl⟩ | ⟨b, -, -, rfl⟩ | ⟨b, i, -, -, hi, he⟩ | ⟨b, -, -, -, rfl⟩⟩ := step_next h
  · exact hwf
  · exact hwf
  · exact exec_engineWf (s := (s.latchFetch b).incrementPc) hi hwf he
  · exact engineWf_dispatchNext _

end Sys2Proof.Machine
end

section
/-! PROOFS. Where `exec` stops (10_state.md R34, 92_eei_decisions.md D16). -/

namespace Sys2Proof.Machine

open Sys2Proof

/-- The implied class has no scratch, and no call of it stops. -/
theorem exec_implied_ne_fault {i : Instr} (hm : i.mode = .implied) (s : State) (r : Fault) : exec i s ≠ .fault r := by
  rw [exec_implied hm]
  rcases impliedHandler_cases i (fun s => s.withP (s.p &&& ~~~flagsWritten i)) s with ⟨-, he⟩ | ⟨-, he⟩ | ⟨-, he⟩ <;>
    rw [he] <;> nofun

/-- An immediate handler stops in cycle 1 with the value unset. -/
theorem react_immediateHandler_fault_iff (make : Option Byte → Instr) (value : Option Byte)
    (commit : Byte → State → State) (s : State) (r : Fault) :
    react (immediateHandler make value commit s) = .fault r ↔
      r = .unsetScratch (make value).opcode s.cycle ∧ value = none ∧ s.cycle = 1 := by
  rcases immediateHandler_cases make value commit s with ⟨hc, he⟩ | ⟨hc, v, rfl, he⟩ | ⟨hc, rfl, he⟩ | ⟨hc, he⟩ <;>
    rw [he]
  · simp [react, hc]
  · simp [react]
  · simp [react, hc, eq_comm]
  · simp [react, cycleContract, show s.cycle ≠ 1 by omega]

/-- An absolute handler stops in cycle 2 with an address byte unset. -/
theorem react_absoluteHandler_fault_iff (make : Option Byte → Option Byte → Instr) (lo hi : Option Byte)
    (operation : Addr → State → Except FaultInfo State) (s : State) (r : Fault) :
    react (absoluteHandler make lo hi operation s) = .fault r ↔
      r = .unsetScratch (make lo hi).opcode s.cycle ∧ (lo = none ∨ hi = none) ∧ s.cycle = 2 := by
  rcases absoluteHandler_cases make lo hi operation s with
    ⟨hc, he⟩ | ⟨hc, he⟩ | ⟨hc, l, b, u, rfl, rfl, -, he⟩ | ⟨hc, l, b, info, rfl, rfl, -, he⟩ | ⟨hc, hu, he⟩ |
    ⟨hc, he⟩ | ⟨hc, he⟩ <;> rw [he]
  · simp [react, hc]
  · simp [react, hc]
  · simp [react]
  · simp [react]
  · simp [react, hc, hu, eq_comm]
  · simp [react, hc]
  · simp [react, cycleContract, show s.cycle ≠ 2 by omega]

/-- `Instr.latched` of the absolute class fails when an address byte is unset. -/
theorem isSome_and_isSome_eq_false_iff (lo hi : Option Byte) :
    (lo.isSome && hi.isSome) = false ↔ lo = none ∨ hi = none := by
  cases lo <;> cases hi <;> simp

/-- `exec` stops exactly where the effect cycle of an instruction that is not latched reads its scratch. -/
theorem exec_fault_iff (i : Instr) (s : State) (r : Fault) :
    exec i s = .fault r ↔
      r = .unsetScratch i.opcode s.cycle ∧ i.latched = false ∧ s.cycle = i.mode.effectCycle := by
  cases i with
  | ldaImm value =>
    exact (react_immediateHandler_fault_iff .ldaImm value _ s r).trans
      (by rw [Instr.latched, Option.isSome_eq_false_iff, Option.isNone_iff_eq_none]; rfl)
  | adcAbs lo hi =>
    rw [Instr.latched, isSome_and_isSome_eq_false_iff]
    exact react_absoluteHandler_fault_iff .adcAbs lo hi _ s r
  | staAbs lo hi =>
    rw [Instr.latched, isSome_and_isSome_eq_false_iff]
    exact react_absoluteHandler_fault_iff .staAbs lo hi _ s r
  | clc => exact iff_of_false (exec_implied_ne_fault rfl s r) (by simp [Instr.latched])
  | cli => exact iff_of_false (exec_implied_ne_fault rfl s r) (by simp [Instr.latched])
  | cld => exact iff_of_false (exec_implied_ne_fault rfl s r) (by simp [Instr.latched])
  | clv => exact iff_of_false (exec_implied_ne_fault rfl s r) (by simp [Instr.latched])
  | ldaAbs lo hi =>
    rw [Instr.latched, isSome_and_isSome_eq_false_iff]
    exact react_absoluteHandler_fault_iff .ldaAbs lo hi _ s r

/-- Settles O23: the two conjuncts are the lemmas about `exec`. -/
theorem unsetScratchIsTheOnlyStop : Obligations.UnsetScratchIsTheOnlyStop := by
  unfold Obligations.UnsetScratchIsTheOnlyStop
  exact fun i s => ⟨exec_fault_iff i s, exec_ne_refused i s⟩

end Sys2Proof.Machine
end

section
/-! PROOFS. What `exec` leaves unchanged, one lemma per part of the state, and with it the frame of the instructions
(10_state.md R21 to R23, R27; 70_reset_and_hazards.md R243) and the statements about P over steps and runs. -/

namespace Sys2Proof.Machine

open Sys2Proof

variable {i : Instr} {s t : State}

/-! ## The frame of `exec` -/

/-- No instruction writes X, Y, SP or the configuration. -/
theorem exec_keeps_unused_config (h : exec i s = .next t) :
    t.x = s.x ∧ t.y = s.y ∧ t.sp = s.sp ∧ t.config = s.config := by
  cases exec_next h with
  | staStores l h u hi hc hw =>
    obtain ⟨devices, rfl⟩ := busWrite_devices_only hw
    exact ⟨rfl, rfl, rfl, rfl⟩
  | _ => exact ⟨rfl, rfl, rfl, rfl⟩

/-- A is written in the effect cycle of the loads and the add. -/
theorem exec_a (h : exec i s = .next t) :
    t.a = s.a ∨ (s.cycle = i.mode.effectCycle ∧ i.opcode ∈ [0xA9, 0x6D, 0xAD]) := by
  cases exec_next h with
  | immediateCommits v hi hc => subst hi; exact .inr ⟨hc, by simp [Instr.opcode]⟩
  | adcAdds l h m hi hc => subst hi; exact .inr ⟨hc, by simp [Instr.opcode]⟩
  | ldaLoads l h m hi hc => subst hi; exact .inr ⟨hc, by simp [Instr.opcode]⟩
  | staStores l h u hi hc hw =>
    obtain ⟨devices, rfl⟩ := busWrite_devices_only hw
    exact .inl rfl
  | _ => exact .inl rfl

theorem loadFlags_keeps (v p : Byte) : loadFlags v p &&& ~~~0x82 = p &&& ~~~0x82 := by
  rw [loadFlags, assignFlag_keeps _ _ _ _ (by decide), assignFlag_keeps _ _ _ _ (by decide)]

theorem adcFlags_keeps (a m p : Byte) : adcFlags a m p &&& ~~~0xC3 = p &&& ~~~0xC3 := by
  simp only [adcFlags]
  rw [assignFlag_keeps _ _ _ _ (by decide), assignFlag_keeps _ _ _ _ (by decide), assignFlag_keeps _ _ _ _ (by decide),
    assignFlag_keeps _ _ _ _ (by decide)]

/-- The bits of P that a row does not write are kept in every cycle. -/
theorem exec_p_masked (h : exec i s = .next t) : t.p &&& ~~~flagsWritten i = s.p &&& ~~~flagsWritten i := by
  cases exec_next h with
  | impliedClears => simp [BitVec.and_assoc]
  | immediateCommits v hi => subst hi; exact loadFlags_keeps v s.p
  | adcAdds l h m hi => subst hi; exact adcFlags_keeps s.a m s.p
  | ldaLoads l h m hi => subst hi; exact loadFlags_keeps m s.p
  | staStores l h u hi hc hw =>
    obtain ⟨devices, rfl⟩ := busWrite_devices_only hw
    rfl
  | _ => rfl

/-- Outside the effect cycle P is kept. -/
theorem exec_p_of_not_effect (h : exec i s = .next t) (hne : s.cycle ≠ i.mode.effectCycle) : t.p = s.p := by
  cases exec_next h with
  | impliedClears hm hc => exact absurd (by rw [hc, hm]; rfl) hne
  | immediateCommits v hi hc => exact absurd (by rw [hc, hi]; rfl) hne
  | adcAdds l h m hi hc => exact absurd (by rw [hc, hi]; rfl) hne
  | ldaLoads l h m hi hc => exact absurd (by rw [hc, hi]; rfl) hne
  | staStores l h u hi hc => exact absurd (by rw [hc, hi]; rfl) hne
  | _ => rfl

/-- The fault record is written by a raise only. -/
theorem exec_fault (h : exec i s = .next t) :
    t.fault = s.fault ∨
      (t.fault.isSome = true ∧ (i.mode.cycles ≤ s.cycle ∨ (i.mode = .absolute ∧ s.cycle = 2))) := by
  cases exec_next h with
  | accessRaises info l h hm hc => exact .inr ⟨rfl, .inr ⟨hm, hc⟩⟩
  | undeclaredCycle hc => exact .inr ⟨rfl, .inl hc⟩
  | staStores l h u hi hc hw =>
    obtain ⟨devices, rfl⟩ := busWrite_devices_only hw
    exact .inl rfl
  | _ => exact .inl rfl

/-- Only cycle 2 of STA abs writes devices. -/
theorem exec_devices (h : exec i s = .next t) (hne : i.opcode ≠ 0x8D ∨ s.cycle ≠ 2) : t.devices = s.devices := by
  cases exec_next h with
  | staStores l h u hi hc => subst hi; simp [Instr.opcode, hc] at hne
  | _ => rfl

/-- Cycle 2 of STA abs leaves every other storage as it was. -/
theorem exec_sta_busRead_other {lo hi : Byte} (h : exec (.staAbs (some lo) (some hi)) s = .next t) {address : Addr}
    (hne : s.storage address ≠ s.storage (effectiveAddress lo hi)) : t.busRead address = s.busRead address := by
  cases exec_next h with
  | staStores l h u hi hc hw =>
    cases hi
    have hother : u.busRead address = s.correctPc.busRead address := busRead_busWrite_other hw hne
    exact hother
  | _ => rfl

/-- Settles O24, part by part. -/
theorem instructionFrames : Obligations.InstructionFrames := by
  unfold Obligations.InstructionFrames
  intro i s t h
  obtain ⟨hx, hy, hsp, hconfig⟩ := exec_keeps_unused_config h
  refine ⟨hx, hy, hsp, hconfig, exec_a h, ?_, exec_fault h, ?_, fun hne => ?_⟩
  · by_cases hc : s.cycle = i.mode.effectCycle
    · exact .inr ⟨hc, exec_p_masked h⟩
    · exact .inl (exec_p_of_not_effect h hc)
  · rintro lo hi rfl - address hne
    exact exec_sta_busRead_other h hne
  · have hdevices := exec_devices h hne
    exact ⟨hdevices, busRead_congr hconfig hdevices⟩

/-! ## P over steps and runs -/

/-- P is kept by a step, or the step is the effect cycle of the active instruction and keeps the bits its row does not
write. -/
theorem step_p (h : step s = .next t) :
    t.p = s.p ∨ ∃ i, s.inst = some i ∧ s.cycle = i.mode.effectCycle ∧
      t.p &&& ~~~flagsWritten i = s.p &&& ~~~flagsWritten i := by
  obtain ⟨-, ⟨info, -, rfl⟩ | ⟨b, -, -, rfl⟩ | ⟨b, i, -, -, hi, he⟩ | ⟨b, -, -, -, rfl⟩⟩ := step_next h
  · exact .inl rfl
  · exact .inl rfl
  · by_cases hc : s.cycle = i.mode.effectCycle
    · exact .inr ⟨i, hi, hc, exec_p_masked (s := (s.latchFetch b).incrementPc) he⟩
    · exact .inl (exec_p_of_not_effect (s := (s.latchFetch b).incrementPc) he hc)
  · exact .inl rfl

/-- Settles O30: by the two cases of `step_p`. -/
theorem flagsChangeOnlyInTheirHandlers : Obligations.FlagsChangeOnlyInTheirHandlers := by
  unfold Obligations.FlagsChangeOnlyInTheirHandlers
  intro s t h
  rcases step_p h with hp | ⟨i, hi, hc, hp⟩
  · cases s.inst with
    | none => exact hp
    | some i => simp only [hp, ite_self]
  · simp only [hi, hc, if_true, hp]

/-- No row writes B or bit 5 (10_state.md R27). -/
theorem notWritten_and_brk_reserved (i : Instr) : ~~~flagsWritten i &&& 0x30 = 0x30 := by
  cases i <;> simp [flagsWritten]

/-- A step keeps B and bit 5. -/
theorem step_keeps_brk_reserved (h : step s = .next t) : t.p &&& 0x30 = s.p &&& 0x30 := by
  rcases step_p h with hp | ⟨i, -, -, hp⟩
  · rw [hp]
  · calc t.p &&& 0x30 = t.p &&& ~~~flagsWritten i &&& 0x30 := by rw [BitVec.and_assoc, notWritten_and_brk_reserved]
      _ = s.p &&& ~~~flagsWritten i &&& 0x30 := by rw [hp]
      _ = s.p &&& 0x30 := by rw [BitVec.and_assoc, notWritten_and_brk_reserved]

/-- Settles O32, by induction over the run. -/
theorem breakAndBitFiveKeepTheirValues : Obligations.BreakAndBitFiveKeepTheirValues := by
  unfold Obligations.BreakAndBitFiveKeepTheirValues
  exact runFor_induction (R := fun s t => t.p &&& 0x30 = s.p &&& 0x30) (fun _ => rfl)
    (fun _ _ _ hst htu => htu.trans hst) (fun _ _ => step_keeps_brk_reserved)

/-! ## The flag operations -/

theorem not_mask_and_mask (f : Flag) : ~~~f.mask &&& f.mask = 0 := by
  cases f <;> rfl

/-- Settles O29: set and clear are the assignments of true and false. -/
theorem flagOperationsTouchOneBit : Obligations.FlagOperationsTouchOneBit := by
  unfold Obligations.FlagOperationsTouchOneBit
  refine ⟨⟨rfl, rfl, rfl, rfl, rfl, rfl, rfl, rfl⟩, fun f p => ?_⟩
  have htest (cond : Bool) : testFlag f (assignFlag f cond p) = cond := by simp [testFlag_assignFlag]
  have hkeeps (cond : Bool) : assignFlag f cond p &&& ~~~f.mask = p &&& ~~~f.mask :=
    assignFlag_keeps f cond p _ (not_mask_and_mask f)
  exact ⟨by simp [testFlag], rfl, rfl, htest true, htest false, hkeeps true, hkeeps false,
    fun cond => ⟨htest cond, hkeeps cond⟩⟩

end Sys2Proof.Machine
end

section
/-! PROOFS. The address decoder (20_memory.md R53 to R62): what resolution, a read and a write answer, one lemma per
case, and the statements about single accesses. -/

namespace Sys2Proof.Machine

open Sys2Proof

variable {s : State} {address : Addr} {m : Mapping}

/-! ## Resolution -/

/-- The range test is inclusive at both ends (20_memory.md R59). -/
theorem contains_iff (m : Mapping) (address : Addr) :
    m.contains address = true ↔ m.start ≤ address ∧ address ≤ m.stop := by
  simp [Mapping.contains]

theorem not_contains_iff (m : Mapping) (address : Addr) :
    (!m.contains address) = true ↔ ¬ (m.start ≤ address ∧ address ≤ m.stop) := by
  rw [← contains_iff, Bool.not_eq_true', Bool.not_eq_true]

/-- Settles O35: `resolve` is `List.find?` of the range test. -/
theorem resolveIsFirstMatch : Obligations.ResolveIsFirstMatch := by
  unfold Obligations.ResolveIsFirstMatch
  intro mappings address
  constructor
  · intro m
    rw [resolve, List.find?_eq_some_iff_append]
    simp only [contains_iff, not_contains_iff]
    constructor
    · rintro ⟨hin, before, after, hsplit, hbefore⟩
      exact ⟨before, after, hsplit, hin, hbefore⟩
    · rintro ⟨before, after, hsplit, hin, hbefore⟩
      exact ⟨hin, before, after, hsplit, hbefore⟩
  · simp only [resolve, List.find?_eq_none, contains_iff]

/-! ## One access -/

theorem busRead_of_unmapped (h : resolve s.config.mappings address = none) : s.busRead address = .ok openBus := by
  rw [State.busRead, h]

theorem busWrite_of_unmapped (h : resolve s.config.mappings address = none) (v : Byte) :
    s.busWrite address v = .ok s := by
  rw [State.busWrite, h]

theorem busRead_of_accepted (h : resolve s.config.mappings address = some m)
    (ha : (s.device m.device).accepts (m.offset address) = true) :
    s.busRead address = .ok ((s.device m.device).read (m.offset address)) := by
  simp only [State.busRead, h, ha, if_true]

theorem busWrite_of_accepted (h : resolve s.config.mappings address = some m)
    (ha : (s.device m.device).accepts (m.offset address) = true) (v : Byte) :
    s.busWrite address v = .ok (s.withDevice m.device ((s.device m.device).write (m.offset address) v)) := by
  simp only [State.busWrite, h, ha, if_true]

theorem busRead_of_beyond (h : resolve s.config.mappings address = some m)
    (hb : (s.device m.device).accepts (m.offset address) = false) :
    s.busRead address = .error (.deviceOffsetOutOfRange address (m.offset address) m.device) := by
  simp only [State.busRead, h, hb, Bool.false_eq_true, if_false]

theorem busWrite_of_beyond (h : resolve s.config.mappings address = some m)
    (hb : (s.device m.device).accepts (m.offset address) = false) (v : Byte) :
    s.busWrite address v = .error (.deviceOffsetOutOfRange address (m.offset address) m.device) := by
  simp only [State.busWrite, h, hb, Bool.false_eq_true, if_false]

/-- Settles O37: unmapped, accepted by the device, or beyond its capacity. -/
theorem busAccessesFollowTheDecoder : Obligations.BusAccessesFollowTheDecoder := by
  unfold Obligations.BusAccessesFollowTheDecoder
  intro s address v
  refine ⟨fun hr => ⟨busRead_of_unmapped hr, busWrite_of_unmapped hr v⟩, fun m hr => ⟨fun hlt => ?_, fun hle => ?_⟩⟩
  · have ha : (s.device m.device).accepts (m.offset address) = true := decide_eq_true hlt
    exact ⟨busRead_of_accepted hr ha, _, busWrite_of_accepted hr ha v,
      device_withDevice_same (device_lt_of_accepts ha) _, fun _ hid => device_withDevice_other hid _, rfl⟩
  · have hb : (s.device m.device).accepts (m.offset address) = false := decide_eq_false (Nat.not_lt.mpr hle)
    exact ⟨busRead_of_beyond hr hb, busWrite_of_beyond hr hb v⟩

/-- Settles O39: the accessors are compositions by definition, and the split of an address joins to it again. -/
theorem splitAccessorsCompose : Obligations.SplitAccessorsCompose := by
  unfold Obligations.SplitAccessorsCompose
  exact fun s hi lo v => ⟨rfl, rfl, readSplit_split s⟩

/-- Where a range fits its device, the device has the offset of every address in the range (20_memory.md R53). -/
theorem accepts_of_mappingFits (hfits : s.mappingFits m = true) (hin : m.contains address = true) :
    (s.device m.device).accepts (m.offset address) = true := by
  obtain ⟨hstart, hstop⟩ := (contains_iff m address).mp hin
  have hrange : m.start ≤ m.stop := BitVec.le_trans hstart hstop
  have hcapacity : (m.stop - m.start).toNat + 1 ≤ (s.device m.device).capacity := by
    simpa [State.mappingFits, hrange] using hfits
  have hoffset : (m.offset address).toNat ≤ (m.stop - m.start).toNat := by
    rw [Mapping.offset, BitVec.toNat_sub_of_le hstart, BitVec.toNat_sub_of_le hrange]
    exact Nat.sub_le_sub_right hstop _
  exact decide_eq_true (Nat.lt_of_le_of_lt hoffset hcapacity)

/-- Settles O40: an address is unmapped, or its mapping's device has the offset. -/
theorem wellFormedConfigNeverRaises : Obligations.WellFormedConfigNeverRaises := by
  unfold Obligations.WellFormedConfigNeverRaises
  intro s address v hwf
  cases hr : resolve s.config.mappings address with
  | none => exact ⟨⟨_, busRead_of_unmapped hr⟩, _, busWrite_of_unmapped hr v⟩
  | some m =>
    obtain ⟨hmem, hin⟩ := resolve_some hr
    have ha := accepts_of_mappingFits (List.all_eq_true.mp hwf m hmem) hin
    exact ⟨⟨_, busRead_of_accepted hr ha⟩, _, busWrite_of_accepted hr ha v⟩

/-! ## A read after a write -/

/-- A write to a read-only device changes nothing (20_memory.md R54). -/
theorem busWrite_readOnly {t : State} {v : Byte} (h : s.busWrite address v = .ok t)
    (hr : resolve s.config.mappings address = some m) (hro : (s.device m.device).readOnly = true) : t = s := by
  obtain ⟨-, rfl⟩ | ⟨m', hr', -, rfl⟩ := busWrite_cases h
  · rfl
  · obtain rfl : m = m' := Option.some.inj (hr.symm.trans hr')
    rw [Device.write_readOnly_eq hro, withDevice_self]

/-- Settles O38: the same storage in a read/write device, a read-only device, and other storage. -/
theorem writeThenRead : Obligations.WriteThenRead := by
  unfold Obligations.WriteThenRead
  intro s t address v hwf hw
  exact ⟨fun m hr hrw other hst => busRead_busWrite_same hwf hw hr hrw hst,
    fun m hr hro => busWrite_readOnly hw hr hro,
    fun other hne => busRead_busWrite_other hw hne⟩

/-- After a write into a read/write device, an address reads the value written or what it read before. -/
theorem exists_busRead_after_busWrite {t : State} {other : Addr} {v old : Byte} (hwf : s.memoryWf = true)
    (h : s.busWrite address v = .ok t) (hr : resolve s.config.mappings address = some m)
    (hrw : (s.device m.device).readOnly = false) (hold : s.busRead other = .ok old) :
    ∃ next, t.busRead other = .ok next ∧ (s.storage other = s.storage address → next = v) ∧
      (s.storage other ≠ s.storage address → next = old) := by
  by_cases hst : s.storage other = s.storage address
  · exact ⟨v, busRead_busWrite_same hwf h hr hrw hst, fun _ => rfl, fun hne => absurd hst hne⟩
  · exact ⟨old, (busRead_busWrite_other h hst).trans hold, fun he => absurd he hst, fun _ => rfl⟩

end Sys2Proof.Machine
end

section
/-! PROOFS. Registration and ownership of devices (20_memory.md R57, R58; 70_reset_and_hazards.md R242). -/

namespace Sys2Proof.Machine

open Sys2Proof

/-! ## One registration -/

/-- The mapping that a registration adds to a block with `id` devices. -/
def Registration.mapping (id : Nat) (r : Registration) : Mapping :=
  { start := r.start, stop := r.stop, device := id }

/-- A mapping at the end of the list is reached by the addresses that no mapping before it contains. -/
theorem resolve_append_singleton (mappings : List Mapping) (m : Mapping) (address : Addr) :
    resolve (mappings ++ [m]) address =
      (resolve mappings address).or (if m.start ≤ address ∧ address ≤ m.stop then some m else none) := by
  rw [resolve, List.find?_append, List.find?_singleton]
  simp only [contains_iff]
  rfl

theorem device_register_new (s : State) (r : Registration) : (s.register r).device s.devices.length = r.device := by
  simp [State.device]

theorem device_register_other (s : State) (r : Registration) {id : Nat} (h : id ≠ s.devices.length) :
    (s.register r).device id = s.device id := by
  rcases Nat.lt_or_gt_of_ne h with hlt | hgt
  · simp [State.device, List.getElem?_append_left hlt]
  · have hbeyond : s.devices.length + 1 ≤ id := hgt
    simp [State.device, List.getElem?_eq_none, hbeyond, Nat.le_of_lt hgt]

/-- The new mapping names the new device, which no earlier mapping of an owning block names. -/
theorem ownsDevices_register {s : State} (h : s.ownsDevices = true) (r : Registration) :
    (s.register r).ownsDevices = true := by
  obtain ⟨hnodup, hbound⟩ := (ownsDevices_iff s).mp h
  have hnew : s.devices.length ∉ s.config.mappings.map Mapping.device := by
    intro hmem
    obtain ⟨m, hm, hid⟩ := List.mem_map.mp hmem
    exact absurd (hbound m hm) (by omega)
  rw [ownsDevices_iff]
  constructor
  · simpa [List.nodup_append, hnodup] using fun m hm hid => hnew (List.mem_map.mpr ⟨m, hm, hid⟩)
  · intro m hm
    rw [State.register_devices, List.length_append, List.length_singleton]
    rcases List.mem_append.mp hm with hold | hlast
    · exact Nat.lt_succ_of_lt (hbound m hold)
    · rw [List.mem_singleton.mp hlast]
      exact Nat.lt_succ_self _

/-- Settles O36: the mapping list's part, and the block's. -/
theorem registeredMappingIsLast : Obligations.RegisteredMappingIsLast := by
  unfold Obligations.RegisteredMappingIsLast
  constructor
  · intro c m address
    refine ⟨rfl, ?_⟩
    rw [configRegister_mappings, resolve_append_singleton]
    cases resolve c.mappings address <;> rfl
  · intro s r
    exact ⟨rfl, device_register_new s r, fun id hid => device_register_other s r hid,
      fun h => ownsDevices_register h r, rfl⟩

/-! ## The assembly -/

/-- The last registration is the last `register`. -/
theorem assemble_concat (s0 : Launch) (ext : ExtOpcodes) (pcOverflow : PcOverflow) (rs : List Registration)
    (r : Registration) :
    State.assemble s0 ext pcOverflow (rs ++ [r]) = (State.assemble s0 ext pcOverflow rs).register r :=
  List.foldl_concat ..

/-- What the assembly builds: the devices handed over, and for the k-th registration a mapping to the k-th device. -/
theorem assemble_eq_construct (s0 : Launch) (ext : ExtOpcodes) (pcOverflow : PcOverflow) (rs : List Registration) :
    State.assemble s0 ext pcOverflow rs =
      State.construct s0 { ext := ext, pcOverflow := pcOverflow, mappings := rs.mapIdx Registration.mapping }
        (rs.map Registration.device) := by
  induction rs using List.reverseRecOn with
  | nil => rfl
  | append_singleton rs r ih =>
    rw [assemble_concat, ih]
    simp [State.register, State.construct, Config.register, Registration.mapping, List.mapIdx_concat]

theorem ownsDevices_assemble (s0 : Launch) (ext : ExtOpcodes) (pcOverflow : PcOverflow) (rs : List Registration) :
    (State.assemble s0 ext pcOverflow rs).ownsDevices = true := by
  induction rs using List.reverseRecOn with
  | nil => rfl
  | append_singleton rs r ih =>
    rw [assemble_concat]
    exact ownsDevices_register ih r

/-- Settles O50: each part is read off the constructed block. -/
theorem assemblyRegistersInOrder : Obligations.AssemblyRegistersInOrder := by
  unfold Obligations.AssemblyRegistersInOrder
  intro s0 ext pcOverflow registrations
  have howns := ownsDevices_assemble s0 ext pcOverflow registrations
  rw [assemble_eq_construct] at howns ⊢
  refine ⟨rfl, List.length_mapIdx, fun k r hk => ?_, rfl, rfl, howns, rfl⟩
  show (registrations.mapIdx Registration.mapping)[k]? = _
  rw [List.getElem?_mapIdx, hk]
  rfl

/-! ## One address per byte -/

theorem storage_eq_some_iff {s : State} {address : Addr} {id : Nat} {offset : Addr} :
    s.storage address = some (id, offset) ↔
      ∃ m, resolve s.config.mappings address = some m ∧ m.device = id ∧ m.offset address = offset := by
  simp [State.storage]

/-- Settles O52: equal storage is one mapping, by ownership, and one offset in it. -/
theorem ownedByteHasOneAddress : Obligations.OwnedByteHasOneAddress := by
  unfold Obligations.OwnedByteHasOneAddress
  intro s address other howns hmapped
  refine ⟨fun hst => ?_, fun h => h ▸ rfl⟩
  obtain ⟨m, hm⟩ := Option.isSome_iff_exists.mp hmapped
  rw [storage_eq_some_iff.mpr ⟨m, hm, rfl, rfl⟩] at hst
  obtain ⟨m', hm', hdevice, hoffset⟩ := storage_eq_some_iff.mp hst
  obtain rfl : m' = m := mapping_eq_of_device_eq howns (resolve_some hm').1 (resolve_some hm).1 hdevice
  exact sub_left_injective hoffset

end Sys2Proof.Machine
end

section
/-! PROOFS. What a call does to the bus (20_memory.md R54, R55, R57, R68; 70_reset_and_hazards.md R243): its
transactions, and the devices it leaves. -/

namespace Sys2Proof.Machine

open Sys2Proof

variable {s t : State}

/-! ## Traffic -/

/-- A handler adds at most one transaction, in cycle 2 of a latched absolute instruction. -/
theorem exec_traffic {i : Instr} (h : exec i s = .next t) :
    t.traffic = s.traffic ∨
      ∃ lo hi, s.cycle = 2 ∧
        (((i = .adcAbs (some lo) (some hi) ∨ i = .ldaAbs (some lo) (some hi)) ∧
            ∃ v, t.traffic = s.traffic ++ [.read (effectiveAddress lo hi) v]) ∨
          (i = .staAbs (some lo) (some hi) ∧ t.traffic = s.traffic ++ [.write (effectiveAddress lo hi) s.a])) := by
  cases exec_next h with
  | adcAdds lo hi m hi' hc => exact .inr ⟨lo, hi, hc, .inl ⟨.inl hi', m, rfl⟩⟩
  | ldaLoads lo hi m hi' hc => exact .inr ⟨lo, hi, hc, .inl ⟨.inr hi', m, rfl⟩⟩
  | staStores lo hi u hi' hc => exact .inr ⟨lo, hi, hc, .inr ⟨hi', rfl⟩⟩
  | _ => exact .inl rfl

/-- Settles O15: a raise of the fetch, a raise of the increment, a handler after the fetch, or the idle decode. -/
theorem oneFetchThenAtMostOneAccess : Obligations.OneFetchThenAtMostOneAccess := by
  unfold Obligations.OneFetchThenAtMostOneAccess
  intro s t h
  obtain ⟨-, ⟨info, hr, rfl⟩ | ⟨b, hr, -, rfl⟩ | ⟨b, i, hr, -, hi, he⟩ | ⟨b, hr, -, -, rfl⟩⟩ := step_next h
  · exact .inl ⟨info, hr, rfl⟩
  · exact .inr ⟨b, hr, .inl rfl⟩
  · rw [hi]
    simp only [Option.some.injEq]
    exact .inr ⟨b, hr, exec_traffic he⟩
  · exact .inr ⟨b, hr, .inl rfl⟩

/-! ## Devices -/

/-- `t` has the devices of `s`, but for one write that its device accepted. -/
def State.oneWriteApart (s t : State) : Prop :=
  t.devices = s.devices ∨
    ∃ id offset v, (s.device id).accepts offset = true ∧
      t.devices = (s.withDevice id ((s.device id).write offset v)).devices

theorem busWrite_oneWriteApart {address : Addr} {v : Byte} (h : s.busWrite address v = .ok t) : s.oneWriteApart t := by
  obtain ⟨-, rfl⟩ | ⟨m, -, ha, rfl⟩ := busWrite_cases h
  · exact .inl rfl
  · exact .inr ⟨m.device, m.offset address, v, ha, rfl⟩

theorem exec_oneWriteApart {i : Instr} (h : exec i s = .next t) : s.oneWriteApart t := by
  cases exec_next h with
  | staStores lo hi u hi' hc hw =>
    have hwritten : s.correctPc.oneWriteApart u := busWrite_oneWriteApart hw
    exact hwritten
  | _ => exact .inl rfl

/-- A step keeps the configuration, and makes at most one write. -/
theorem step_config_and_devices (h : step s = .next t) : t.config = s.config ∧ s.oneWriteApart t := by
  obtain ⟨-, ⟨info, -, rfl⟩ | ⟨b, -, -, rfl⟩ | ⟨b, i, -, -, -, he⟩ | ⟨b, -, -, -, rfl⟩⟩ := step_next h
  · exact ⟨rfl, .inl rfl⟩
  · exact ⟨rfl, .inl rfl⟩
  · obtain ⟨-, -, -, hconfig⟩ := exec_keeps_unused_config he
    have hwritten : (s.latchFetch b).incrementPc.oneWriteApart t := exec_oneWriteApart he
    exact ⟨hconfig, hwritten⟩
  · exact ⟨rfl, .inl rfl⟩

theorem State.oneWriteApart.memoryWf (h : s.oneWriteApart t) (hwf : s.memoryWf = true) : t.memoryWf = true := by
  rw [State.memoryWf]
  obtain hd | ⟨id, offset, v, ha, hd⟩ := h <;> rw [hd]
  · exact hwf
  · exact all_wf_withDevice hwf (Device.wf_write (memoryDevice_wf hwf id) ha v)

theorem State.oneWriteApart.length (h : s.oneWriteApart t) : t.devices.length = s.devices.length := by
  obtain hd | ⟨id, offset, v, -, hd⟩ := h <;> rw [hd]
  rw [State.withDevice_devices, List.length_set]

/-- A device's capacity and kind are kept, and a read-only device whole (20_memory.md R54). -/
def Device.sameShape (d e : Device) : Prop :=
  e.capacity = d.capacity ∧ e.readOnly = d.readOnly ∧ (d.readOnly = true → e = d)

theorem Device.sameShape_refl (d : Device) : d.sameShape d :=
  ⟨rfl, rfl, fun _ => rfl⟩

theorem Device.sameShape_trans {d e f : Device} (hde : d.sameShape e) (hef : e.sameShape f) : d.sameShape f := by
  obtain ⟨hcapacity, hkind, hreadOnly⟩ := hde
  obtain ⟨hcapacity', hkind', hreadOnly'⟩ := hef
  exact ⟨hcapacity'.trans hcapacity, hkind'.trans hkind,
    fun hro => (hreadOnly' (hkind.trans hro)).trans (hreadOnly hro)⟩

theorem Device.sameShape_write (d : Device) (offset : Addr) (v : Byte) : d.sameShape (d.write offset v) :=
  ⟨d.write_capacity offset v, d.write_readOnly offset v, fun hro => Device.write_readOnly_eq hro offset v⟩

theorem device_congr (h : t.devices = s.devices) (id : Nat) : t.device id = s.device id := by
  rw [State.device, State.device, h]

theorem State.oneWriteApart.sameShape (h : s.oneWriteApart t) (id : Nat) : (s.device id).sameShape (t.device id) := by
  obtain hd | ⟨id', offset, v, ha, hd⟩ := h <;> rw [device_congr hd id]
  · exact Device.sameShape_refl _
  · by_cases hid : id = id'
    · rw [hid, device_withDevice_same (device_lt_of_accepts ha)]
      exact Device.sameShape_write _ offset v
    · rw [device_withDevice_other hid]
      exact Device.sameShape_refl _

/-- Settles O46: a write that its device accepts keeps the canonical form. -/
theorem stepKeepsMemoryWf : Obligations.StepKeepsMemoryWf := by
  unfold Obligations.StepKeepsMemoryWf
  intro s t hwf h
  obtain ⟨-, hdevices⟩ := step_config_and_devices h
  exact hdevices.memoryWf hwf

/-- Settles O51: ownership reads the mapping list and the number of devices, and a step keeps both. -/
theorem stepKeepsOwnership : Obligations.StepKeepsOwnership := by
  unfold Obligations.StepKeepsOwnership
  intro s t howns h
  obtain ⟨hconfig, hdevices⟩ := step_config_and_devices h
  exact (ownsDevices_congr (congrArg Config.mappings hconfig) hdevices.length).trans howns

/-- `t` has the configuration of `s` and devices of the same number and shape. -/
def State.sameHardware (s t : State) : Prop :=
  t.config = s.config ∧ t.devices.length = s.devices.length ∧ ∀ id, (s.device id).sameShape (t.device id)

theorem State.sameHardware_refl (s : State) : s.sameHardware s :=
  ⟨rfl, rfl, fun _ => Device.sameShape_refl _⟩

theorem State.sameHardware_trans (s t u : State) (hst : s.sameHardware t) (htu : t.sameHardware u) :
    s.sameHardware u := by
  obtain ⟨hconfig, hlength, hshape⟩ := hst
  obtain ⟨hconfig', hlength', hshape'⟩ := htu
  exact ⟨hconfig'.trans hconfig, hlength'.trans hlength, fun id => Device.sameShape_trans (hshape id) (hshape' id)⟩

theorem step_sameHardware (s t : State) (h : step s = .next t) : s.sameHardware t := by
  obtain ⟨hconfig, hdevices⟩ := step_config_and_devices h
  exact ⟨hconfig, hdevices.length, hdevices.sameShape⟩

/-- Settles O41, by induction over the run. -/
theorem configurationIsFixed : Obligations.ConfigurationIsFixed := by
  unfold Obligations.ConfigurationIsFixed
  exact runFor_induction State.sameHardware_refl State.sameHardware_trans step_sameHardware

end Sys2Proof.Machine
end

section
/-! PROOFS. STA abs from its decode to the next (43_absolute.md R180, R184), and the byte the next opcode fetch sees
(20_memory.md R75, 70_reset_and_hazards.md R246). -/

namespace Sys2Proof.Machine

open Sys2Proof

variable {s u : State} {i : Instr} {lo hi b : Byte}

/-- A write sees only the configuration and the devices, and changes only the devices. -/
theorem busWrite_congr {t : State} {address : Addr} {v : Byte} (hc : t.config = s.config)
    (hd : t.devices = s.devices) (h : s.busWrite address v = .ok u) :
    t.busWrite address v = .ok { t with devices := u.devices } := by
  obtain ⟨hr, rfl⟩ | ⟨m, hr, ha, rfl⟩ := busWrite_cases h <;> rw [← hc] at hr
  · rw [busWrite_of_unmapped hr, ← hd]
  · rw [← device_congr hd] at ha ⊢
    rw [busWrite_of_accepted hr ha, State.withDevice_devices, ← hd]
    rfl

/-! ## The calls of an absolute instruction -/

theorem step_absolute_latchesLo (hf : s.noFault) (hinst : s.inst = some i) (hm : i.mode = .absolute)
    (hc : s.cycle = 0) (hr : s.busRead s.pc = .ok b) (ha : s.mayAdvance s.pc) :
    step s = .next { s with
      dl := b, pc := s.pc + 1, inst := some (latchLo b i), cycle := 1, traffic := [.read s.pc b] } := by
  have hcycle : (s.latchFetch b).incrementPc.cycle = 0 := hc
  rw [step_of_active hf hr ha hinst, exec_absolute_latchesLo hm hcycle, State.continueWith, hcycle]
  rfl

theorem step_absolute_latchesHi (hf : s.noFault) (hinst : s.inst = some i) (hm : i.mode = .absolute)
    (hc : s.cycle = 1) (hr : s.busRead s.pc = .ok b) (ha : s.mayAdvance s.pc) :
    step s = .next { s with
      dl := b, pc := s.pc + 1, inst := some (latchHi b i), cycle := 2, traffic := [.read s.pc b] } := by
  have hcycle : (s.latchFetch b).incrementPc.cycle = 1 := hc
  rw [step_of_active hf hr ha hinst, exec_absolute_latchesHi hm hcycle, State.continueWith, hcycle]
  rfl

@[simp] theorem mode_latchLo (b : Byte) (i : Instr) : (latchLo b i).mode = i.mode := by
  cases i <;> rfl

/-- The first two calls of an absolute instruction latch the bytes at PC and PC + 1. -/
theorem runFor_absolute_latches (n : Nat) (hf : s.noFault) (hinst : s.inst = some i) (hm : i.mode = .absolute)
    (hc : s.cycle = 0) (hlo : s.busRead s.pc = .ok lo) (hhi : s.busRead (s.pc + 1) = .ok hi)
    (ha : s.mayAdvance s.pc) (ha' : s.mayAdvance (s.pc + 1)) :
    runFor (n + 2) s = runFor n { s with
      dl := hi, pc := s.pc + 2, inst := some (latchHi hi (latchLo lo i)), cycle := 2,
      traffic := [.read (s.pc + 1) hi] } := by
  have hm' : (latchLo lo i).mode = .absolute := (mode_latchLo lo i).trans hm
  have hpc : s.pc + 2 = s.pc + 1 + 1 := by rw [BitVec.add_assoc]; rfl
  rw [runFor_succ_next (step_absolute_latchesLo hf hinst hm hc hlo ha), hpc]
  exact runFor_succ_next (step_absolute_latchesHi hf rfl hm' rfl hhi ha')

/-- Cycle 2 of STA abs leaves the devices of the write, and PC where it was. -/
theorem step_staAbs_stores (hf : s.noFault) (hinst : s.inst = some (.staAbs (some lo) (some hi)))
    (hc : s.cycle = 2) (hr : s.busRead s.pc = .ok b) (ha : s.mayAdvance s.pc)
    (hw : s.busWrite (effectiveAddress lo hi) s.a = .ok u) :
    step s = .next { s with
      dl := b, cycle := 3, devices := u.devices,
      traffic := [.read s.pc b, .write (effectiveAddress lo hi) s.a] } := by
  have hcycle : (s.latchFetch b).incrementPc.cycle = 2 := hc
  have hwrite : (s.latchFetch b).incrementPc.correctPc.busWrite (effectiveAddress lo hi) s.a = .ok _ :=
    busWrite_congr (s := s) rfl rfl hw
  rw [step_of_active hf hr ha hinst, exec_staAbs_stores hcycle hwrite]
  simp [State.continueWith, State.withTraffic, hc, hinst]

theorem step_absolute_fills (hf : s.noFault) (hinst : s.inst = some i) (hm : i.mode = .absolute) (hc : s.cycle = 3)
    (hr : s.busRead s.pc = .ok b) (ha : s.mayAdvance s.pc) :
    step s = .next { s with
      dl := b, pc := s.pc + 1, inst := decodeOpcode s.config.ext b, cycle := 0, traffic := [.read s.pc b] } := by
  rw [step_of_active hf hr ha hinst]
  exact exec_absolute_fills hm hc

/-! ## STA abs, whole -/

/-- The four calls of a freshly decoded STA abs: `old` is the byte at PC + 2 before the store, and `next` after it. -/
theorem runFor_staAbs {devices : List Device} {old next : Byte} (hf : s.noFault)
    (hinst : s.inst = some (.staAbs none none)) (hc : s.cycle = 0) (hlo : s.busRead s.pc = .ok lo)
    (hhi : s.busRead (s.pc + 1) = .ok hi) (hold : s.busRead (s.pc + 2) = .ok old) (ha : s.mayAdvance s.pc)
    (ha' : s.mayAdvance (s.pc + 1)) (ha'' : s.mayAdvance (s.pc + 2))
    (hw : s.busWrite (effectiveAddress lo hi) s.a = .ok { s with devices := devices })
    (hnext : { s with devices := devices }.busRead (s.pc + 2) = .ok next) :
    runFor 4 s = .next { s with
      devices := devices, pc := s.pc + 3, dl := next, inst := decodeOpcode s.config.ext next, cycle := 0,
      traffic := [.read (s.pc + 2) next] } := by
  have hpc : s.pc + 3 = s.pc + 2 + 1 := by rw [BitVec.add_assoc]; rfl
  rw [runFor_absolute_latches 2 hf hinst rfl hc hlo hhi ha ha', hpc]
  refine Eq.trans (runFor_succ_next (step_staAbs_stores hf rfl rfl hold ha'' (busWrite_congr (s := s) rfl rfl hw))) ?_
  exact runFor_succ_next (step_absolute_fills hf rfl rfl rfl hnext ha'')

/-- Settles O28: the store answers, and the byte at PC + 2 after it is A or the old byte. -/
theorem storeIsSeenByTheNextOpcodeFetch : Obligations.StoreIsSeenByTheNextOpcodeFetch := by
  unfold Obligations.StoreIsSeenByTheNextOpcodeFetch
  intro s lo hi old m hf hwf hinst hc hlo hhi hold ha ha' ha'' hresolve hcapacity hrw
  obtain ⟨devices, hw⟩ :
      ∃ devices, s.busWrite (effectiveAddress lo hi) s.a = .ok { s with devices := devices } :=
    ⟨_, busWrite_of_accepted hresolve (decide_eq_true hcapacity) s.a⟩
  obtain ⟨next, hnext, hhere, helsewhere⟩ := exists_busRead_after_busWrite hwf hw hresolve hrw hold
  have hsame : { s with devices := devices }.busRead (effectiveAddress lo hi) = .ok s.a :=
    busRead_busWrite_same hwf hw hresolve hrw rfl
  have hother {address : Addr} (hne : s.storage address ≠ s.storage (effectiveAddress lo hi)) :
      { s with devices := devices }.busRead address = s.busRead address := busRead_busWrite_other hw hne
  exact ⟨_, next, runFor_staAbs hf hinst hc hlo hhi hold ha ha' ha'' hw hnext, hhere, helsewhere, rfl, hsame,
    fun _ => hother⟩

end Sys2Proof.Machine
end

section
/-! PROOFS. The dispatch table (30_encoding.md R93 to R96). -/

namespace Sys2Proof

open Sys2Proof.Machine

/-- What a row's opcode dispatches to: its fresh instance where the row is configured, else none (R93, R94). -/
theorem decodeOpcode_opcode_eq_ite {ext : ExtOpcodes} {i : Instr} (hready : readyAt i 0 = true) :
    decodeOpcode ext i.opcode = if i.configured ext then some i else none := by
  split
  next hconfigured => exact decodeOpcode_opcode hconfigured hready
  next habsent => cases i <;> simp_all [Instr.configured, Instr.opcode, decodeOpcode]

/-- The eight opcode bytes of the table. -/
theorem opcode_mem_table (i : Instr) : i.opcode ∈ [0xA9, 0x6D, 0x8D, 0x18, 0x58, 0xD8, 0xB8, 0xAD] := by
  cases i <;> simp [Instr.opcode]

/-- A byte outside the table dispatches to none: what a byte dispatches to has that byte as its opcode. -/
theorem decodeOpcode_eq_none_of_notMem_table {b : Byte} (ext : ExtOpcodes)
    (h : b ∉ [0xA9, 0x6D, 0x8D, 0x18, 0x58, 0xD8, 0xB8, 0xAD]) : decodeOpcode ext b = none := by
  cases hd : decodeOpcode ext b with
  | none => rfl
  | some i =>
    obtain ⟨-, -, rfl⟩ := decodeOpcode_some hd
    exact absurd (opcode_mem_table i) h

/-- Settles O1: each row's clause is what its opcode dispatches to, and the last is the bytes outside the table. -/
theorem dispatchTableHasTheseRows : Obligations.DispatchTableHasTheseRows := by
  unfold Obligations.DispatchTableHasTheseRows
  intro ext
  have row {i : Instr} (hready : readyAt i 0 = true) := decodeOpcode_opcode_eq_ite (ext := ext) hready
  exact ⟨row (i := .ldaImm none) rfl, row (i := .adcAbs none none) rfl, row (i := .staAbs none none) rfl,
    row (i := .clc) rfl, row (i := .cli) rfl, row (i := .cld) rfl, row (i := .clv) rfl,
    row (i := .ldaAbs none none) rfl, fun _ => decodeOpcode_eq_none_of_notMem_table ext⟩

/-- Settles O2: 0xFF is outside the table. -/
theorem opcodeFFIsNeverRecognized : Obligations.OpcodeFFIsNeverRecognized := by
  unfold Obligations.OpcodeFFIsNeverRecognized
  intro ext
  exact decodeOpcode_eq_none_of_notMem_table ext (by decide)

/-- Settles O3, by counting over the 256 bytes under each of the two configurations. -/
theorem unrecognizedByteCounts : Obligations.UnrecognizedByteCounts := by
  unfold Obligations.UnrecognizedByteCounts
  constructor
  · decide +kernel
  · decide +kernel

end Sys2Proof
end

section
/-! PROOFS. Decoding and encoding of whole instructions (30_encoding.md R90 to R93): each is the other's inverse on
well-formed instructions. The dispatched instance is the instruction with its scratch unset, and `latchOperands` gives
it back the operand bytes that `encode` writes after the opcode. -/

namespace Sys2Proof

open Sys2Proof.Machine

theorem Instr.wf_iff {ext : ExtOpcodes} {i : Instr} :
    i.wf ext = true ↔ i.configured ext = true ∧ i.latched = true := by
  simp [Instr.wf]

/-- The fresh instance of an instruction's row: its scratch unset (10_state.md R34). -/
def Instr.fresh : Instr → Instr
  | .ldaImm _ => .ldaImm none
  | .adcAbs _ _ => .adcAbs none none
  | .staAbs _ _ => .staAbs none none
  | .clc => .clc
  | .cli => .cli
  | .cld => .cld
  | .clv => .clv
  | .ldaAbs _ _ => .ldaAbs none none

@[simp] theorem Instr.opcode_fresh (i : Instr) : i.fresh.opcode = i.opcode := by
  cases i <;> rfl

@[simp] theorem Instr.configured_fresh (ext : ExtOpcodes) (i : Instr) : i.fresh.configured ext = i.configured ext := by
  cases i <;> rfl

@[simp] theorem Instr.readyAt_fresh (i : Instr) : readyAt i.fresh 0 = true := by
  cases i <;> rfl

/-- The opcode of any instruction of a configured row dispatches to its fresh instance. -/
theorem decodeOpcode_opcode_eq_fresh {ext : ExtOpcodes} {i : Instr} (h : i.configured ext = true) :
    decodeOpcode ext i.opcode = some i.fresh := by
  simpa using decodeOpcode_opcode ((i.configured_fresh ext).trans h) i.readyAt_fresh

/-! ## What `decode`, `latchOperands` and `encode` answer -/

/-- A recognized opcode leaves the rest of the list to `latchOperands`. -/
theorem decode_cons_of_dispatched {ext : ExtOpcodes} {op : Byte} {i : Instr} (h : decodeOpcode ext op = some i)
    (bytes : List Byte) : decode ext (op :: bytes) = latchOperands op i bytes := by
  simp only [decode, h]

/-- What decodes has a recognized opcode, and its operands were latched from the bytes after it. -/
theorem decode_ok {ext : ExtOpcodes} {bytes rest : List Byte} {i : Instr} (h : decode ext bytes = .ok (i, rest)) :
    ∃ op operands j, bytes = op :: operands ∧ decodeOpcode ext op = some j ∧
      latchOperands op j operands = .ok (i, rest) := by
  cases bytes with
  | nil => cases h
  | cons op operands =>
    cases hd : decodeOpcode ext op with
    | none => simp [decode, hd] at h
    | some j => exact ⟨op, operands, j, rfl, hd, decode_cons_of_dispatched hd operands ▸ h⟩

/-- What `latchOperands` answers is fully latched, of the row it was given, and took the bytes `encode` writes after
the opcode. -/
theorem latchOperands_ok {op : Byte} {i j : Instr} {bytes rest : List Byte}
    (h : latchOperands op j bytes = .ok (i, rest)) :
    (∀ ext, i.configured ext = j.configured ext) ∧ i.latched = true ∧
      ∃ operands, encode i = some (j.opcode :: operands) ∧ bytes = operands ++ rest := by
  unfold latchOperands at h
  split at h <;> cases h <;> exact ⟨fun _ => rfl, rfl, _, rfl, rfl⟩

/-- A fully latched instruction has an encoding, its opcode and then operand bytes, and its fresh instance latches
itself back from those bytes, whatever follows. -/
theorem exists_encode_of_latched {i : Instr} (h : i.latched = true) :
    ∃ operands, encode i = some (i.opcode :: operands) ∧
      ∀ op rest, latchOperands op i.fresh (operands ++ rest) = .ok (i, rest) :=
  match i, h with
  | .ldaImm (some value), _ => ⟨[value], rfl, fun _ _ => rfl⟩
  | .adcAbs (some lo) (some hi), _ => ⟨[lo, hi], rfl, fun _ _ => rfl⟩
  | .staAbs (some lo) (some hi), _ => ⟨[lo, hi], rfl, fun _ _ => rfl⟩
  | .ldaAbs (some lo) (some hi), _ => ⟨[lo, hi], rfl, fun _ _ => rfl⟩
  | .clc, _ => ⟨[], rfl, fun _ _ => rfl⟩
  | .cli, _ => ⟨[], rfl, fun _ _ => rfl⟩
  | .cld, _ => ⟨[], rfl, fun _ _ => rfl⟩
  | .clv, _ => ⟨[], rfl, fun _ _ => rfl⟩

/-- The family EncodeShape, for every instruction. -/
theorem encodeShape (i : Instr) : Laws.EncodeShape.Statement i :=
  match i with
  | .ldaImm value => Laws.EncodeShape.ldaImm value
  | .adcAbs lo hi => Laws.EncodeShape.adcAbs lo hi
  | .staAbs lo hi => Laws.EncodeShape.staAbs lo hi
  | .clc => Laws.EncodeShape.clc
  | .cli => Laws.EncodeShape.cli
  | .cld => Laws.EncodeShape.cld
  | .clv => Laws.EncodeShape.clv
  | .ldaAbs lo hi => Laws.EncodeShape.ldaAbs lo hi

/-- An encoding has the length of its class (R90). -/
theorem length_of_encode {i : Instr} {bytes : List Byte} (h : encode i = some bytes) :
    bytes.length = i.mode.length :=
  (encodeShape i bytes h).1

/-! ## The two directions -/

/-- Settles O5: the opcode dispatches to the fresh instance, which latches back the operand bytes. -/
theorem decodeOfEncodeIsTheInstruction : Obligations.DecodeOfEncodeIsTheInstruction := by
  unfold Obligations.DecodeOfEncodeIsTheInstruction
  intro ext i rest hwf
  obtain ⟨hconfigured, hlatched⟩ := Instr.wf_iff.mp hwf
  obtain ⟨operands, hencode, hlatch⟩ := exists_encode_of_latched hlatched
  refine ⟨i.opcode :: operands, hencode, length_of_encode hencode, ?_⟩
  calc decode ext (i.opcode :: (operands ++ rest))
      = latchOperands i.opcode i.fresh (operands ++ rest) :=
        decode_cons_of_dispatched (decodeOpcode_opcode_eq_fresh hconfigured) _
    _ = .ok (i, rest) := hlatch _ _

/-- Settles O6: the dispatched instance is of a configured row and has the first byte as its opcode, and the operands
latched are those of the encoding. -/
theorem decodedBytesAreTheEncoding : Obligations.DecodedBytesAreTheEncoding := by
  unfold Obligations.DecodedBytesAreTheEncoding
  intro ext bytes rest i h
  obtain ⟨op, _, j, rfl, hdispatch, hlatch⟩ := decode_ok h
  obtain ⟨hconfigured, -, rfl⟩ := decodeOpcode_some hdispatch
  obtain ⟨hrow, hlatched, operands, hencode, rfl⟩ := latchOperands_ok hlatch
  exact ⟨Instr.wf_iff.mpr ⟨(hrow ext).trans hconfigured, hlatched⟩, j.opcode :: operands, hencode, rfl⟩

/-- Settles O4, by running the decoder on each word. -/
theorem writtenOutWordsDecode : Obligations.WrittenOutWordsDecode := by
  unfold Obligations.WrittenOutWordsDecode
  decide

end Sys2Proof
end

section
/-! PROOFS. One call of `advance` (40_fetch_dispatch.md R111 to R120): what `exec` and a step that raise nothing leave
active and in PC, and the call that decodes. -/

namespace Sys2Proof.Machine

open Sys2Proof

variable {i : Instr} {s t : State} {b : Byte}

/-! ## `exec` without a raise -/

@[simp] theorem opcode_latchLo (b : Byte) (i : Instr) : (latchLo b i).opcode = i.opcode := by
  cases i <;> rfl

@[simp] theorem opcode_latchHi (b : Byte) (i : Instr) : (latchHi b i).opcode = i.opcode := by
  cases i <;> rfl

/-- No handler writes DL (10_state.md R25). -/
theorem exec_dl (h : exec i s = .next t) : t.dl = s.dl := by
  cases exec_next h with
  | staStores lo hi u hi' hc hw =>
    obtain ⟨devices, rfl⟩ := busWrite_devices_only hw
    rfl
  | _ => rfl

/-- Before the last cycle of `i`'s class: an instance of the same row is active, one cycle on (R114). -/
def State.continuesRow (s : State) (i : Instr) (t : State) : Prop :=
  s.cycle + 1 < i.mode.cycles ∧ (∃ i', t.inst = some i' ∧ i'.opcode = i.opcode) ∧ t.cycle = s.cycle + 1

/-- In the last cycle of `i`'s class: what is active is decoded from DL, at cycle 0 (R115). -/
def State.decodesAfterRow (s : State) (i : Instr) (t : State) : Prop :=
  s.cycle + 1 = i.mode.cycles ∧ t.inst = decodeOpcode s.config.ext s.dl ∧ t.cycle = 0

theorem continuesRow_continueWith {u : State} {j : Instr} {mode : AddressingMode} {cycle : Nat} (hm : i.mode = mode)
    (hc : s.cycle = cycle) (hlt : cycle + 1 < mode.cycles) (hj : j.opcode = i.opcode) (hu : u.cycle = s.cycle) :
    s.continuesRow i (u.continueWith j) := by
  subst hm hc
  exact ⟨hlt, ⟨j, rfl, hj⟩, congrArg (· + 1) hu⟩

theorem decodesAfterRow_dispatchNext {u : State} {mode : AddressingMode} {cycle : Nat} (hm : i.mode = mode)
    (hc : s.cycle = cycle) (hlast : cycle + 1 = mode.cycles) (hconfig : u.config = s.config) (hdl : u.dl = s.dl) :
    s.decodesAfterRow i u.dispatchNext := by
  subst hm hc
  exact ⟨hlast, by rw [State.dispatchNext_inst, hconfig, hdl], rfl⟩

/-- A handler that raises nothing continues before its class's last cycle, and in that cycle decodes. -/
theorem exec_continues_or_decodes (h : exec i s = .next t) (hf : t.noFault) :
    s.continuesRow i t ∨ s.decodesAfterRow i t := by
  cases exec_next h with
  | impliedCorrects hm hc => exact .inl (continuesRow_continueWith hm hc (by decide) rfl rfl)
  | impliedClears hm hc => exact .inr (decodesAfterRow_dispatchNext hm hc rfl rfl rfl)
  | immediateLatches value hi hc =>
    exact .inl (continuesRow_continueWith (mode := .immediate) (hi ▸ rfl) hc (by decide) (hi ▸ rfl) rfl)
  | immediateCommits v hi hc => exact .inr (decodesAfterRow_dispatchNext (mode := .immediate) (hi ▸ rfl) hc rfl rfl rfl)
  | absoluteLatchesLo hm hc => exact .inl (continuesRow_continueWith hm hc (by decide) (opcode_latchLo _ i) rfl)
  | absoluteLatchesHi hm hc => exact .inl (continuesRow_continueWith hm hc (by decide) (opcode_latchHi _ i) rfl)
  | adcAdds l h m hi hc =>
    exact .inl (continuesRow_continueWith (mode := .absolute) (hi ▸ rfl) hc (by decide) rfl rfl)
  | ldaLoads l h m hi hc =>
    exact .inl (continuesRow_continueWith (mode := .absolute) (hi ▸ rfl) hc (by decide) rfl rfl)
  | staStores l h u hi hc hw =>
    obtain ⟨devices, rfl⟩ := busWrite_devices_only hw
    exact .inl (continuesRow_continueWith (mode := .absolute) (hi ▸ rfl) hc (by decide) rfl rfl)
  | absoluteFills hm hc => exact .inr (decodesAfterRow_dispatchNext hm hc rfl rfl rfl)
  | accessRaises => cases hf
  | undeclaredCycle => cases hf

/-- A handler that raises nothing moves PC in the two correcting branches only (R120). -/
theorem exec_pc (h : exec i s = .next t) (hf : t.noFault) :
    t.pc = if correctsPc i s.cycle then s.pc - 1 else s.pc := by
  cases exec_next h with
  | impliedCorrects hm hc => simp [correctsPc, hm, hc]
  | impliedClears hm hc => simp [correctsPc, hm, hc]
  | immediateLatches value hi => subst hi; rfl
  | immediateCommits v hi => subst hi; rfl
  | absoluteLatchesLo hm hc => simp [correctsPc, hm, hc]
  | absoluteLatchesHi hm hc => simp [correctsPc, hm, hc]
  | adcAdds l h m hi hc => subst hi; simp [correctsPc, Instr.mode, hc]
  | ldaLoads l h m hi hc => subst hi; simp [correctsPc, Instr.mode, hc, loadAccumulator]
  | staStores l h u hi hc hw =>
    subst hi
    obtain ⟨devices, rfl⟩ := busWrite_devices_only hw
    simp [correctsPc, Instr.mode, hc]
  | accessRaises => cases hf
  | absoluteFills hm hc => simp [correctsPc, hm, hc]
  | undeclaredCycle => cases hf

/-! ## A step without a raise -/

/-- The inversion of a step that raised nothing: the fetch answered, and what followed is `exec` or the idle decode. -/
theorem step_next_noFault (h : step s = .next t) (hf : t.noFault) :
    ∃ b, s.busRead s.pc = .ok b ∧
      ((∃ i, s.inst = some i ∧ exec i (s.latchFetch b).incrementPc = .next t) ∨
        (s.inst = none ∧ t = (s.latchFetch b).incrementPc.dispatchNext)) := by
  obtain ⟨-, ⟨info, -, rfl⟩ | ⟨b, -, -, rfl⟩ | ⟨b, i, hr, -, hi, he⟩ | ⟨b, hr, -, hi, rfl⟩⟩ := step_next h
  · cases hf
  · cases hf
  · exact ⟨b, hr, .inl ⟨i, hi, he⟩⟩
  · exact ⟨b, hr, .inr ⟨hi, rfl⟩⟩

theorem result_of_noFault (hf : t.noFault) : t.result = .running t.inst.isSome := by
  simp only [State.result, show t.fault = none from hf]

/-- Settles O8: the handler continued or decoded, or the step was the idle decode. -/
theorem resultsByCase : Obligations.ResultsByCase := by
  unfold Obligations.ResultsByCase
  intro s t h hf
  have hresult := result_of_noFault hf
  refine ⟨hresult, ?_⟩
  obtain ⟨b, hr, ⟨i, hi, he⟩ | ⟨hi, rfl⟩⟩ := step_next_noFault h hf
  · have hdl : t.dl = b := exec_dl he
    obtain ⟨-, -, -, hconfig⟩ := exec_keeps_unused_config he
    simp only [hi, Option.some.injEq, forall_eq', reduceCtorEq, false_implies, and_true]
    rcases exec_continues_or_decodes he hf with ⟨hlt, ⟨i', hi', hop⟩, hcycle⟩ | ⟨hlast, hinst, hcycle⟩
    · refine ⟨fun _ => ⟨⟨i', hi', hop⟩, hcycle, by rw [hresult, hi']; rfl⟩, fun hlast => ?_⟩
      exact absurd hlast (Nat.ne_of_lt hlt)
    · refine ⟨fun hlt => absurd hlast (Nat.ne_of_lt hlt), fun _ => ⟨hdl ▸ hr, ?_, hcycle⟩⟩
      rw [hinst, hdl]
      rfl
  · simp only [hi, reduceCtorEq, false_implies, implies_true, true_and, true_implies]
    exact ⟨hr, rfl, rfl⟩

/-- Settles O13: the increment moves PC by one, and the correction takes it back. -/
theorem pcMovesByOneUnlessCorrected : Obligations.PcMovesByOneUnlessCorrected := by
  unfold Obligations.PcMovesByOneUnlessCorrected
  intro s t h hf
  obtain ⟨b, -, ⟨i, hi, he⟩ | ⟨hi, rfl⟩⟩ := step_next_noFault h hf
  · have hpc : t.pc = if correctsPc i s.cycle then s.pc + 1 - 1 else s.pc + 1 := exec_pc he hf
    simp only [hi]
    rwa [BitVec.add_sub_cancel] at hpc
  · rw [hi]
    rfl

/-- Settles O7, clause by clause: each is the lemma about `step` in that case. -/
theorem stepIsFetchIncrementThenHandler : Obligations.StepIsFetchIncrementThenHandler := by
  unfold Obligations.StepIsFetchIncrementThenHandler
  intro s
  refine ⟨fun info => step_of_fault, fun hf => ⟨fun info hr => ⟨_, step_of_raise hf hr, rfl⟩, fun b hr => ⟨?_, ?_⟩⟩⟩
  · exact fun hpc hover => ⟨_, step_of_overflow hf hr (not_not.mpr ⟨hpc, hover⟩), rfl⟩
  · exact fun ha => ⟨fun i hi => ⟨_, step_of_active hf hr ha hi, rfl⟩, fun hi => ⟨_, step_of_idle hf hr ha hi, rfl⟩⟩

/-! ## Calls with no instance active -/

/-- With no instance active, a call decodes the byte at PC. -/
theorem step_decodes (hf : s.noFault) (hinst : s.inst = none) (hr : s.busRead s.pc = .ok b) (ha : s.mayAdvance s.pc) :
    step s = .next { s with
      dl := b, pc := s.pc + 1, inst := decodeOpcode s.config.ext b, cycle := 0, traffic := [.read s.pc b] } :=
  step_of_idle hf hr ha hinst

/-- Where that byte is unrecognized, no instance is active after the call. -/
theorem step_skips (hf : s.noFault) (hinst : s.inst = none) (hr : s.busRead s.pc = .ok b) (ha : s.mayAdvance s.pc)
    (hb : decodeOpcode s.config.ext b = none) :
    step s = .next { s with dl := b, pc := s.pc + 1, inst := none, cycle := 0, traffic := [.read s.pc b] } :=
  hb ▸ step_decodes hf hinst hr ha

/-- Settles O10: by the call that skips the byte. -/
theorem unrecognizedByteCostsOneCall : Obligations.UnrecognizedByteCostsOneCall := by
  unfold Obligations.UnrecognizedByteCostsOneCall
  intro s b hf hinst hr ha hb
  exact ⟨_, step_skips hf hinst hr ha hb, result_of_noFault hf, rfl⟩

/-- Every address reads a byte outside the configured table. -/
def State.nothingRecognized (s : State) : Prop :=
  ∀ address, ∃ b, s.busRead address = .ok b ∧ decodeOpcode s.config.ext b = none

/-- Under `wrap` every fetch may advance (R112). -/
theorem mayAdvance_of_wrap (h : s.config.pcOverflow = .wrap) (pc : Addr) : s.mayAdvance pc := by
  simp [State.mayAdvance, h]

/-- A run over unrecognized bytes moves PC by one a call and keeps all but DL and the record of traffic. -/
theorem runFor_skips (n : Nat) : ∀ s : State, s.noFault → s.inst = none → s.config.pcOverflow = .wrap →
    s.nothingRecognized →
    ∃ b traffic, runFor (n + 1) s = .next { s with
      dl := b, pc := s.pc + BitVec.ofNat 16 (n + 1), inst := none, cycle := 0, traffic := traffic } := by
  induction n with
  | zero =>
    intro s hf hinst hwrap hnone
    obtain ⟨b, hr, hb⟩ := hnone s.pc
    exact ⟨b, _, runFor_succ_next (step_skips hf hinst hr (mayAdvance_of_wrap hwrap _) hb)⟩
  | succ n ih =>
    intro s hf hinst hwrap hnone
    obtain ⟨b, hr, hb⟩ := hnone s.pc
    obtain ⟨b', traffic, hrun⟩ := ih { s with
      dl := b, pc := s.pc + 1, inst := none, cycle := 0, traffic := [.read s.pc b] } hf rfl hwrap hnone
    have hpc : s.pc + 1 + BitVec.ofNat 16 (n + 1) = s.pc + BitVec.ofNat 16 (n + 1 + 1) := by
      rw [BitVec.add_assoc, BitVec.add_comm 1, BitVec.ofNat_add (n + 1) 1]
      rfl
    refine ⟨b', traffic, ?_⟩
    rw [runFor_succ_next (step_skips hf hinst hr (mayAdvance_of_wrap hwrap _) hb), hrun, hpc]

/-- Settles O11: the state that the run leaves has every field as claimed. -/
theorem unrecognizedStreamRunsOn : Obligations.UnrecognizedStreamRunsOn := by
  unfold Obligations.UnrecognizedStreamRunsOn
  intro n s hf hinst hwrap hnone
  obtain ⟨b, traffic, hrun⟩ := runFor_skips n s hf hinst hwrap hnone
  exact ⟨_, hrun, result_of_noFault hf, rfl, rfl, rfl, rfl, rfl, rfl, rfl, rfl, rfl⟩

end Sys2Proof.Machine
end

section
/-! PROOFS. Calls in a row (40_fetch_dispatch.md R122 to R125): the calls that consume an instruction's bytes, and
whole instances from their decode to the next. -/

namespace Sys2Proof.Machine

open Sys2Proof

variable {s : State} {i : Instr} {b lo hi m next v : Byte}

@[simp] theorem mode_latchHi (b : Byte) (i : Instr) : (latchHi b i).mode = i.mode := by
  cases i <;> rfl

/-! ## The calls of an implied and an immediate instance -/

/-- Cycle 0 of an implied instance leaves PC where it was. -/
theorem step_implied_corrects (hf : s.noFault) (hinst : s.inst = some i) (hm : i.mode = .implied) (hc : s.cycle = 0)
    (hr : s.busRead s.pc = .ok b) (ha : s.mayAdvance s.pc) :
    step s = .next { s with dl := b, cycle := 1, traffic := [.read s.pc b] } := by
  have hcycle : (s.latchFetch b).incrementPc.cycle = 0 := hc
  rw [step_of_active hf hr ha hinst, exec_implied_corrects hm hcycle]
  simp [State.continueWith, State.correctPc, State.incrementPc, State.latchFetch, hc, hinst]

theorem step_implied_clears (hf : s.noFault) (hinst : s.inst = some i) (hm : i.mode = .implied) (hc : s.cycle = 1)
    (hr : s.busRead s.pc = .ok b) (ha : s.mayAdvance s.pc) :
    step s = .next { s with
      p := s.p &&& ~~~flagsWritten i, dl := b, pc := s.pc + 1, inst := decodeOpcode s.config.ext b, cycle := 0,
      traffic := [.read s.pc b] } := by
  rw [step_of_active hf hr ha hinst]
  exact exec_implied_clears hm hc

theorem step_ldaImm_latches {value : Option Byte} (hf : s.noFault) (hinst : s.inst = some (.ldaImm value))
    (hc : s.cycle = 0) (hr : s.busRead s.pc = .ok b) (ha : s.mayAdvance s.pc) :
    step s = .next { s with
      dl := b, pc := s.pc + 1, inst := some (.ldaImm (some b)), cycle := 1, traffic := [.read s.pc b] } := by
  have hcycle : (s.latchFetch b).incrementPc.cycle = 0 := hc
  rw [step_of_active hf hr ha hinst, exec_ldaImm_latches value hcycle, State.continueWith, hcycle]
  rfl

theorem step_ldaImm_commits (hf : s.noFault) (hinst : s.inst = some (.ldaImm (some v))) (hc : s.cycle = 1)
    (hr : s.busRead s.pc = .ok b) (ha : s.mayAdvance s.pc) :
    step s = .next { s with
      a := v, p := loadFlags v s.p, dl := b, pc := s.pc + 1, inst := decodeOpcode s.config.ext b, cycle := 0,
      traffic := [.read s.pc b] } := by
  rw [step_of_active hf hr ha hinst]
  exact exec_ldaImm_commits v hc

/-! ## The calls that consume an instruction -/

@[simp] theorem mode_fresh (i : Instr) : i.fresh.mode = i.mode := by
  cases i <;> rfl

/-- What each class encodes as, and how its fresh instance is latched back to it. -/
theorem encode_cases {bytes : List Byte} (h : encode i = some bytes) :
    (i.mode = .implied ∧ bytes = [i.opcode] ∧ i.fresh = i) ∨
    (∃ v, i = .ldaImm (some v) ∧ bytes = [i.opcode, v]) ∨
    (i.mode = .absolute ∧ ∃ lo hi, bytes = [i.opcode, lo, hi] ∧ latchHi hi (latchLo lo i.fresh) = i) := by
  unfold encode at h
  split at h <;> cases h
  case h_1 v => exact .inr (.inl ⟨v, rfl, rfl⟩)
  case h_2 lo hi => exact .inr (.inr ⟨rfl, lo, hi, rfl, rfl⟩)
  case h_3 lo hi => exact .inr (.inr ⟨rfl, lo, hi, rfl, rfl⟩)
  case h_8 lo hi => exact .inr (.inr ⟨rfl, lo, hi, rfl, rfl⟩)
  all_goals exact .inl ⟨rfl, rfl, rfl⟩

/-- Over the opcode of a configured row, a call with no instance active makes the row's fresh instance active. -/
theorem runFor_decodes_fresh (n : Nat) (hf : s.noFault) (hinst : s.inst = none)
    (hconfigured : i.configured s.config.ext = true) (hr : s.busRead s.pc = .ok i.opcode) (ha : s.mayAdvance s.pc) :
    runFor (n + 1) s = runFor n { s with
      dl := i.opcode, pc := s.pc + 1, inst := some i.fresh, cycle := 0, traffic := [.read s.pc i.opcode] } := by
  rw [runFor_succ_next (step_decodes hf hinst hr ha), decodeOpcode_opcode_eq_fresh hconfigured]

/-- Settles O12: the opcode's call makes the fresh instance active, and each call after it latches an operand byte. -/
theorem consumedBytesBecomeTheInstruction : Obligations.ConsumedBytesBecomeTheInstruction := by
  unfold Obligations.ConsumedBytesBecomeTheInstruction
  rintro s i bytes hf ⟨hinst, -⟩ hwf hencode hprogram hadvance
  obtain ⟨hconfigured, -⟩ := Instr.wf_iff.mp hwf
  have ha : s.mayAdvance s.pc := by
    simpa using hadvance 0 (by rw [length_of_encode hencode]; cases i.mode <;> decide)
  rcases encode_cases hencode with ⟨hm, rfl, hfresh⟩ | ⟨v, rfl, rfl⟩ | ⟨hm, lo, hi, rfl, hlatched⟩
  · obtain ⟨-, hop, -⟩ := hprogram
    rw [hm]
    refine ⟨_, runFor_decodes_fresh 0 hf hinst hconfigured hop ha, ?_⟩
    rw [hfresh]
    rfl
  · obtain ⟨-, hop, -, hv, -⟩ := hprogram
    have ha' : s.mayAdvance (s.pc + 1) := hadvance 1 (by simp)
    refine ⟨_, (runFor_decodes_fresh 1 hf hinst hconfigured hop ha).trans
      (runFor_succ_next (step_ldaImm_latches hf rfl rfl hv ha')), ?_⟩
    have hpc : s.pc + 1 + 1 = s.pc + BitVec.ofNat 16 2 := BitVec.add_assoc _ _ _
    rw [hpc]
    rfl
  · obtain ⟨-, hop, -, hlo, -, hhi, -⟩ := hprogram
    have ha' : s.mayAdvance (s.pc + 1) := hadvance 1 (by simp)
    have ha'' : s.mayAdvance (s.pc + 1 + 1) := by
      rw [BitVec.add_assoc]
      exact hadvance 2 (by simp)
    rw [hm]
    refine ⟨_, (runFor_decodes_fresh 2 hf hinst hconfigured hop ha).trans
      (runFor_absolute_latches 0 hf rfl (by simpa using hm) rfl hlo hhi ha' ha''), ?_⟩
    have hpc : s.pc + 1 + 2 = s.pc + BitVec.ofNat 16 3 := BitVec.add_assoc _ _ _
    rw [hpc, hlatched]
    rfl

/-! ## Whole instances of two calls -/

/-- Settles O25: cycle 0 takes the increment back, and cycle 1 clears the flag and decodes. -/
theorem impliedInstanceTakesTwoCalls : Obligations.ImpliedInstanceTakesTwoCalls := by
  unfold Obligations.ImpliedInstanceTakesTwoCalls
  intro s i next hf hinst hm hc hr ha
  exact ⟨_, (runFor_succ_next (step_implied_corrects hf hinst hm hc hr ha)).trans
    (runFor_succ_next (step_implied_clears hf hinst hm rfl hr ha)), rfl⟩

/-- Z is computed by a comparison of bytes, and stated over the natural numbers. -/
theorem beq_zero_eq (v : Byte) : (v == 0#8) = decide (v.toNat = 0) := by
  rw [Bool.beq_eq_decide_eq, decide_eq_decide, BitVec.toNat_eq]
  rfl

theorem loadFlagsHold_loadFlags (v p : Byte) : loadFlagsHold v p (loadFlags v p) := by
  refine ⟨?_, ?_, loadFlags_keeps v p⟩
  · simp [loadFlags, testFlag_assignFlag, beq_zero_eq]
  · simp [loadFlags, testFlag_assignFlag, bit7_eq]

/-- Settles O26: cycle 0 latches the operand, and cycle 1 loads it and decodes. -/
theorem ldaImmediateInstanceTakesTwoCalls : Obligations.LdaImmediateInstanceTakesTwoCalls := by
  unfold Obligations.LdaImmediateInstanceTakesTwoCalls
  intro s v next hf hinst hc hr hr' ha ha'
  refine ⟨_, (runFor_succ_next (step_ldaImm_latches hf hinst hc hr ha)).trans
    (runFor_succ_next (step_ldaImm_commits hf rfl rfl hr' ha')), loadFlagsHold_loadFlags v s.p, ?_⟩
  have hpc : s.pc + 1 + 1 = s.pc + 2 := BitVec.add_assoc _ _ _
  rw [hpc]
  rfl

/-! ## Whole instances that read in cycle 2 -/

theorem adcLawHolds_adc (a m p : Byte) :
    adcLawHolds a m p (adcResult a m (testFlag .carry p)) (adcFlags a m p) := by
  have hcarry : (testFlag .carry p).toNat = if testFlag .carry p then 1 else 0 := by
    cases testFlag .carry p <;> rfl
  have hresult := adcResult_toNat a m (testFlag .carry p)
  have hcarryOut : decide (255#9 < adcTotal a m (testFlag .carry p)) =
      decide (255 < a.toNat + m.toNat + (testFlag .carry p).toNat) := by
    rw [decide_eq_decide, BitVec.lt_def, adcTotal_toNat]
    rfl
  simp only [adcLawHolds, ← hcarry, ← hresult]
  refine ⟨trivial, ?_, ?_, ?_, ?_, ?_⟩
  · simp [adcFlags, testFlag_assignFlag, hcarryOut]
  · simp [adcFlags, testFlag_assignFlag, beq_zero_eq]
  · simp [adcFlags, testFlag_assignFlag, bit7_eq]
  · simp [adcFlags, testFlag_assignFlag, bit7_eq]
  · exact adcFlags_keeps a m p

theorem step_adcAbs_adds (hf : s.noFault) (hinst : s.inst = some (.adcAbs (some lo) (some hi))) (hc : s.cycle = 2)
    (hr : s.busRead s.pc = .ok b) (ha : s.mayAdvance s.pc) (hm : s.busRead (effectiveAddress lo hi) = .ok m) :
    step s = .next { s with
      a := adcResult s.a m (testFlag .carry s.p), p := adcFlags s.a m s.p, dl := b, cycle := 3,
      traffic := [.read s.pc b, .read (effectiveAddress lo hi) m] } := by
  have hcycle : (s.latchFetch b).incrementPc.cycle = 2 := hc
  rw [step_of_active hf hr ha hinst, exec_adcAbs_adds hcycle hm]
  simp [State.continueWith, State.withP, State.withA, State.withTraffic, hc, hinst]

theorem step_ldaAbs_loads (hf : s.noFault) (hinst : s.inst = some (.ldaAbs (some lo) (some hi))) (hc : s.cycle = 2)
    (hr : s.busRead s.pc = .ok b) (ha : s.mayAdvance s.pc) (hm : s.busRead (effectiveAddress lo hi) = .ok m) :
    step s = .next { s with
      a := m, p := loadFlags m s.p, dl := b, cycle := 3,
      traffic := [.read s.pc b, .read (effectiveAddress lo hi) m] } := by
  have hcycle : (s.latchFetch b).incrementPc.cycle = 2 := hc
  rw [step_of_active hf hr ha hinst, exec_ldaAbs_loads hcycle hm]
  simp [State.continueWith, loadAccumulator, State.withP, State.withA, State.withTraffic, hc, hinst]

/-- An absolute instruction decoded at PC, as the calls that latch its operand bytes leave it. -/
def State.operandsLatched (s : State) (i : Instr) (lo hi : Byte) : State :=
  { s with
    dl := hi, pc := s.pc + 2, inst := some (latchHi hi (latchLo lo i)), cycle := 2, traffic := [.read (s.pc + 1) hi] }

/-- The four calls of a freshly decoded absolute instruction whose cycle 2 changes A and P. -/
theorem runFor_absolute_reads {a p : Byte} {traffic : List Transaction} (hf : s.noFault) (hinst : s.inst = some i)
    (hm : i.mode = .absolute) (hc : s.cycle = 0) (hlo : s.busRead s.pc = .ok lo) (hhi : s.busRead (s.pc + 1) = .ok hi)
    (hnext : s.busRead (s.pc + 2) = .ok next) (ha : s.mayAdvance s.pc) (ha' : s.mayAdvance (s.pc + 1))
    (ha'' : s.mayAdvance (s.pc + 2))
    (hoperation : step (s.operandsLatched i lo hi) = .next { s.operandsLatched i lo hi with
      a := a, p := p, dl := next, cycle := 3, traffic := traffic }) :
    runFor 4 s = .next { s with
      a := a, p := p, pc := s.pc + 3, dl := next, inst := decodeOpcode s.config.ext next, cycle := 0,
      traffic := [.read (s.pc + 2) next] } := by
  have hpc : s.pc + 3 = s.pc + 2 + 1 := (BitVec.add_assoc s.pc 2 1).symm
  have hmode : (latchHi hi (latchLo lo i)).mode = .absolute := by simpa using hm
  rw [runFor_absolute_latches 2 hf hinst hm hc hlo hhi ha ha', hpc]
  refine Eq.trans (runFor_succ_next hoperation) ?_
  exact runFor_succ_next (step_absolute_fills hf rfl hmode rfl hnext ha'')

/-- Settles O27: the two rows differ in what cycle 2 does with the byte it reads. -/
theorem absoluteReadInstancesTakeFourCalls : Obligations.AbsoluteReadInstancesTakeFourCalls := by
  unfold Obligations.AbsoluteReadInstancesTakeFourCalls
  intro s lo hi m next hf hc hlo hhi hnext hm ha ha' ha''
  constructor <;> intro hinst
  · have hadd := step_adcAbs_adds (s := s.operandsLatched (.adcAbs none none) lo hi) hf rfl rfl hnext ha'' hm
    exact ⟨_, runFor_absolute_reads hf hinst rfl hc hlo hhi hnext ha ha' ha'' hadd, adcLawHolds_adc s.a m s.p, rfl⟩
  · have hload := step_ldaAbs_loads (s := s.operandsLatched (.ldaAbs none none) lo hi) hf rfl rfl hnext ha'' hm
    exact ⟨_, runFor_absolute_reads hf hinst rfl hc hlo hhi hnext ha ha' ha'' hload, loadFlagsHold_loadFlags m s.p, rfl⟩

end Sys2Proof.Machine
end

section
/-! PROOFS. The clear-flag instructions (41_implied.md R140 to R144): the rule of the implied class, for every row of
it. -/

namespace Sys2Proof.Machine

open Sys2Proof

variable {i : Instr}

/-- At a cycle its class does not declare, an implied instance raises (60_exceptions.md R211). -/
theorem exec_implied_undeclared (hm : i.mode = .implied) {s : State} (hc : 2 ≤ s.cycle) :
    exec i s = .next (s.raiseFault (.cycleContractViolation i.opcode s.cycle s.pc s.dl)) := by
  rw [exec_implied hm]
  rcases impliedHandler_cases i (fun s => s.withP (s.p &&& ~~~flagsWritten i)) s with
    ⟨hzero, -⟩ | ⟨hone, -⟩ | ⟨-, hraise⟩
  · omega
  · omega
  · rw [hraise]
    rfl

/-- An implied row has no operand bytes (30_encoding.md R90). -/
theorem encode_of_implied (hm : i.mode = .implied) : encode i = some [i.opcode] :=
  match i, hm with
  | .clc, _ | .cli, _ | .cld, _ | .clv, _ => rfl

/-- An implied row has no scratch, so it is as it was dispatched at every cycle (10_state.md R34). -/
theorem readyAt_zero_of_implied (hm : i.mode = .implied) : readyAt i 0 = true :=
  match i, hm with
  | .clc, _ | .cli, _ | .cld, _ | .clv, _ => rfl

/-- R140: the rows of the class differ in their opcode, the flag they clear, and the parameter that configures them. -/
theorem impliedRule_of_implied (hm : i.mode = .implied) :
    impliedRule i i.opcode (flagsWritten i) (fun ext => i.configured ext) := by
  refine ⟨encode_of_implied hm, fun ext => decodeOpcode_opcode_eq_ite (readyAt_zero_of_implied hm),
    fun s => ⟨?_, ?_, ?_⟩⟩
  · intro hc
    refine ⟨_, exec_implied_corrects hm hc, ?_⟩
    rw [State.continueWith, State.correctPc, hc]
    rfl
  · intro hc
    exact ⟨_, exec_implied_clears hm hc, rfl⟩
  · intro hc
    exact ⟨_, exec_implied_undeclared hm hc, rfl⟩

/-- Settles O16: CLC, CLI, CLD and CLV are rows of the implied class. -/
theorem clearFlagInstructionsFollowTheirRules : Obligations.ClearFlagInstructionsFollowTheirRules := by
  unfold Obligations.ClearFlagInstructionsFollowTheirRules
  exact ⟨impliedRule_of_implied (i := .clc) rfl, impliedRule_of_implied (i := .cli) rfl,
    impliedRule_of_implied (i := .cld) rfl, impliedRule_of_implied (i := .clv) rfl⟩

end Sys2Proof.Machine
end

section
/-! PROOFS. The immediate load (42_immediate.md R160, R161): what its instance does at each cycle. -/

namespace Sys2Proof.Machine

open Sys2Proof

/-- At a cycle its class does not declare, an immediate load raises, whatever its scratch (60_exceptions.md R211). -/
theorem exec_ldaImm_undeclared (value : Option Byte) {s : State} (hc : 2 ≤ s.cycle) :
    exec (.ldaImm value) s = .next (s.raiseFault (.cycleContractViolation 0xA9 s.cycle s.pc s.dl)) := by
  show react (immediateHandler .ldaImm value loadAccumulator s) = _
  rcases immediateHandler_cases .ldaImm value loadAccumulator s with
    ⟨hzero, -⟩ | ⟨hone, -⟩ | ⟨hone, -⟩ | ⟨-, hraise⟩
  · omega
  · omega
  · omega
  · rw [hraise]
    rfl

/-- Settles O17: the encoding, and the equation of `exec` at each cycle. -/
theorem ldaImmediateFollowsItsRule : Obligations.LdaImmediateFollowsItsRule := by
  unfold Obligations.LdaImmediateFollowsItsRule
  refine ⟨fun _ => rfl, fun s => ⟨?_, ?_, ?_⟩⟩
  · intro value hc
    refine ⟨_, exec_ldaImm_latches value hc, ?_⟩
    rw [State.continueWith, hc]
    rfl
  · intro v hc
    exact ⟨_, exec_ldaImm_commits v hc, loadFlagsHold_loadFlags v s.p, rfl⟩
  · intro value hc
    exact ⟨_, exec_ldaImm_undeclared value hc, rfl⟩

end Sys2Proof.Machine
end

section
/-! PROOFS. The absolute class (43_absolute.md R180 to R187): what its instances do at each cycle, ADC, LDA and STA abs
in cycle 2 among them. -/

namespace Sys2Proof.Machine

open Sys2Proof

variable {i : Instr} {s u : State} {lo hi : Byte} {ea : Addr} {info : FaultInfo}

/-! ## The effective address -/

/-- The bytes take disjoint bits of the address, so joining them is a sum (20_memory.md R51). -/
theorem joinBytes_toNat (high low : Byte) : (joinBytes high low).toNat = high.toNat * 256 + low.toNat := by
  have hshift : high.toNat <<< 8 % 2 ^ 16 = high.toNat <<< 8 := by
    rw [Nat.shiftLeft_eq]
    exact Nat.mod_eq_of_lt (by omega)
  calc (joinBytes high low).toNat
      = high.toNat <<< 8 ||| low.toNat := by
        simp only [joinBytes, BitVec.zeroExtend, BitVec.toNat_or, BitVec.toNat_shiftLeft,
          BitVec.toNat_setWidth_of_le (show 8 ≤ 16 by decide), hshift]
    _ = high.toNat <<< 8 + low.toNat := (Nat.shiftLeft_add_eq_or_of_lt low.isLt high.toNat).symm
    _ = high.toNat * 256 + low.toNat := by rw [Nat.shiftLeft_eq]

/-- Settles O19: the effective address joins the latched bytes. -/
theorem effectiveAddressIsHighThenLow : Obligations.EffectiveAddressIsHighThenLow := by
  unfold Obligations.EffectiveAddressIsHighThenLow
  exact fun lo hi => joinBytes_toNat hi lo

/-! ## The cycles but 2 -/

/-- An absolute instance's call is its handler's, with the operation of its row. -/
theorem exists_exec_absolute (hm : i.mode = .absolute) :
    ∃ make lo hi operation, make lo hi = i ∧ ∀ s, exec i s = react (absoluteHandler make lo hi operation s) :=
  match i, hm with
  | .adcAbs lo hi, _ => ⟨.adcAbs, lo, hi, adcOperation, rfl, fun _ => rfl⟩
  | .staAbs lo hi, _ => ⟨.staAbs, lo, hi, staOperation, rfl, fun _ => rfl⟩
  | .ldaAbs lo hi, _ => ⟨.ldaAbs, lo, hi, ldaAbsOperation, rfl, fun _ => rfl⟩

/-- At a cycle its class does not declare, an absolute instance raises, whatever its scratch (60_exceptions.md R211). -/
theorem exec_absolute_undeclared (hm : i.mode = .absolute) (hc : 4 ≤ s.cycle) :
    exec i s = .next (s.raiseFault (.cycleContractViolation i.opcode s.cycle s.pc s.dl)) := by
  obtain ⟨make, lo, hi, operation, rfl, hexec⟩ := exists_exec_absolute hm
  obtain ⟨n, hn⟩ := Nat.exists_eq_add_of_le' hc
  have hraise : absoluteHandler make lo hi operation s = cycleContract (make lo hi).opcode s := by
    unfold absoluteHandler
    rw [hn]
  rw [hexec, hraise]
  rfl

/-- R180 without cycle 2, for a row whose constructor takes the low and then the high address byte. -/
theorem absoluteLatchRule_of_absolute {make : Option Byte → Option Byte → Instr} {op : Byte}
    (hmode : ∀ lo hi, (make lo hi).mode = .absolute) (hop : ∀ lo hi, (make lo hi).opcode = op)
    (hlo : ∀ b lo hi, latchLo b (make lo hi) = make (some b) hi)
    (hhi : ∀ b lo hi, latchHi b (make lo hi) = make lo (some b)) : absoluteLatchRule make op := by
  intro lo hi s
  refine ⟨fun hc => ?_, fun hc => ?_, fun hc => ?_, fun hc => ?_⟩
  · refine ⟨_, exec_absolute_latchesLo (hmode lo hi) hc, ?_⟩
    rw [hlo, State.continueWith, hc]
    rfl
  · refine ⟨_, exec_absolute_latchesHi (hmode lo hi) hc, ?_⟩
    rw [hhi, State.continueWith, hc]
    rfl
  · exact ⟨_, exec_absolute_fills (hmode lo hi) hc, rfl⟩
  · refine ⟨_, exec_absolute_undeclared (hmode lo hi) hc, ?_⟩
    rw [hop]
    rfl

/-- Settles O18: ADC, STA and LDA abs are rows of the absolute class. -/
theorem absoluteCyclesLatchAndFill : Obligations.AbsoluteCyclesLatchAndFill := by
  unfold Obligations.AbsoluteCyclesLatchAndFill
  exact ⟨absoluteLatchRule_of_absolute (fun _ _ => rfl) (fun _ _ => rfl) (fun _ _ _ => rfl) (fun _ _ _ => rfl),
    absoluteLatchRule_of_absolute (fun _ _ => rfl) (fun _ _ => rfl) (fun _ _ _ => rfl) (fun _ _ _ => rfl),
    absoluteLatchRule_of_absolute (fun _ _ => rfl) (fun _ _ => rfl) (fun _ _ _ => rfl) (fun _ _ _ => rfl)⟩

/-! ## Cycle 2: a raise of the access -/

theorem adcOperation_of_raise (h : s.busRead ea = .error info) : adcOperation ea s = .error info := by
  rw [adcOperation_eq, h]
  rfl

theorem ldaAbsOperation_of_raise (h : s.busRead ea = .error info) : ldaAbsOperation ea s = .error info := by
  rw [ldaAbsOperation_eq, h]
  rfl

theorem staOperation_of_raise (h : s.busWrite ea s.a = .error info) : staOperation ea s = .error info := by
  rw [staOperation_eq, h]
  rfl

/-- A raise by the operation's access keeps the correction of PC (60_exceptions.md R212). -/
theorem react_absolute_two_of_raise (make : Option Byte → Option Byte → Instr)
    {operation : Addr → State → Except FaultInfo State} (hc : s.cycle = 2)
    (h : operation (effectiveAddress lo hi) s.correctPc = .error info) :
    react (absoluteHandler make (some lo) (some hi) operation s) = .next (s.correctPc.raiseFault info) := by
  rw [react_absolute_two _ _ _ _ hc, h]

/-! ## Cycle 2: ADC abs and LDA abs -/

/-- Settles O20: the read answers and the row adds, or the read raises. -/
theorem adcAddsWithCarryAndTheAsBuiltOverflow : Obligations.AdcAddsWithCarryAndTheAsBuiltOverflow := by
  unfold Obligations.AdcAddsWithCarryAndTheAsBuiltOverflow
  refine ⟨⟨fun _ _ => rfl, fun _ => decodeOpcode_opcode_eq_ite (i := .adcAbs none none) rfl⟩, fun lo hi s hc => ⟨?_, ?_⟩⟩
  · intro m hr
    refine ⟨_, exec_adcAbs_adds hc hr, adcLawHolds_adc s.a m s.p, ?_⟩
    rw [State.continueWith, State.withP_cycle, State.withA_cycle, State.withTraffic_cycle, State.correctPc_cycle, hc]
    rfl
  · exact fun info hr => ⟨_, react_absolute_two_of_raise .adcAbs hc (adcOperation_of_raise hr), rfl⟩

/-- Settles O21: the read answers and the row loads, or the read raises. -/
theorem ldaAbsoluteLoadsAndSetsZeroAndNegative : Obligations.LdaAbsoluteLoadsAndSetsZeroAndNegative := by
  unfold Obligations.LdaAbsoluteLoadsAndSetsZeroAndNegative
  refine ⟨⟨fun _ _ => rfl, fun _ => decodeOpcode_opcode_eq_ite (i := .ldaAbs none none) rfl⟩, fun lo hi s hc => ⟨?_, ?_⟩⟩
  · intro m hr
    refine ⟨_, exec_ldaAbs_loads hc hr, loadFlagsHold_loadFlags m s.p, ?_⟩
    rw [State.continueWith, loadAccumulator, State.withP_cycle, State.withA_cycle, State.withTraffic_cycle,
      State.correctPc_cycle, hc]
    rfl
  · exact fun info hr => ⟨_, react_absolute_two_of_raise .ldaAbs hc (ldaAbsOperation_of_raise hr), rfl⟩

/-! ## Cycle 2: STA abs -/

/-- Cycle 2 of STA abs leaves the devices of the write. -/
theorem exec_staAbs_of_busWrite (hc : s.cycle = 2) (hw : s.busWrite (effectiveAddress lo hi) s.a = .ok u) :
    exec (.staAbs (some lo) (some hi)) s = .next { s with
      pc := s.pc - 1, inst := some (.staAbs (some lo) (some hi)), cycle := 3, devices := u.devices,
      traffic := s.traffic ++ [.write (effectiveAddress lo hi) s.a] } := by
  have hwrite : s.correctPc.busWrite (effectiveAddress lo hi) s.a = .ok { s.correctPc with devices := u.devices } :=
    busWrite_congr (s := s) rfl rfl hw
  rw [exec_staAbs_stores hc hwrite, State.continueWith, State.withTraffic_cycle, State.correctPc_cycle, hc]
  rfl

/-- Settles O22: the address is unmapped, its device has the offset, or the offset is beyond it. -/
theorem staStoresTheAccumulator : Obligations.StaStoresTheAccumulator := by
  unfold Obligations.StaStoresTheAccumulator
  refine ⟨⟨fun _ _ => rfl, fun _ => decodeOpcode_opcode_eq_ite (i := .staAbs none none) rfl⟩,
    fun lo hi s hc => ⟨?_, ?_, ?_⟩⟩
  · exact fun hr => ⟨_, exec_staAbs_of_busWrite hc (busWrite_of_unmapped hr s.a), rfl⟩
  · intro m hr hlt
    obtain ⟨devices, hw⟩ :
        ∃ devices, s.busWrite (effectiveAddress lo hi) s.a = .ok { s with devices := devices } :=
      ⟨_, busWrite_of_accepted hr (decide_eq_true hlt) s.a⟩
    have hignored (hro : (s.device m.device).readOnly = true) : devices = s.devices :=
      congrArg State.devices (busWrite_readOnly hw hr hro)
    have hstored (hrw : (s.device m.device).readOnly = false) (hwf : s.memoryWf = true) :
        { s with devices := devices }.busRead (effectiveAddress lo hi) = .ok s.a :=
      busRead_busWrite_same hwf hw hr hrw rfl
    have hother (address : Addr) (hne : s.storage address ≠ s.storage (effectiveAddress lo hi)) :
        { s with devices := devices }.busRead address = s.busRead address := busRead_busWrite_other hw hne
    exact ⟨_, exec_staAbs_of_busWrite hc hw, rfl, hignored, hstored, hother⟩
  · intro m hr hle
    have hraise := busWrite_of_beyond (s := s.correctPc) hr (decide_eq_false (Nat.not_lt.mpr hle)) s.a
    exact ⟨_, react_absolute_two_of_raise .staAbs hc (staOperation_of_raise hraise), rfl⟩

end Sys2Proof.Machine
end

section
/-! PROOFS. Raises (60_exceptions.md R210 to R214): everything a call that raised can be, and that no run raises from a
state with a well-formed engine and configuration under `wrap`. -/

namespace Sys2Proof.Machine

open Sys2Proof

variable {i : Instr} {s t : State} {address : Addr} {info : FaultInfo}

/-! ## After a raise -/

/-- Settles O9: the first call is refused, and with it the run. -/
theorem faultedStateHasNoStep : Obligations.FaultedStateHasNoStep := by
  unfold Obligations.FaultedStateHasNoStep
  exact fun s info n hf => runFor_succ_refused (step_of_fault hf)

theorem result_of_fault (hf : t.fault = some info) : t.result = .fatal info := by
  simp only [State.result, hf]

/-! ## The calls that raise -/

/-- `info` is what an access at `address` raises: it resolves to a mapping whose device lacks the offset (20_memory.md
R53). -/
def State.raisesAt (s : State) (address : Addr) (info : FaultInfo) : Prop :=
  ∃ m, resolve s.config.mappings address = some m ∧ (s.device m.device).capacity ≤ (m.offset address).toNat ∧
    info = .deviceOffsetOutOfRange address (m.offset address) m.device

theorem raisesAt_of_busRead (h : s.busRead address = .error info) : s.raisesAt address info :=
  busRead_error h

theorem raisesAt_of_busWrite {v : Byte} (h : s.busWrite address v = .error info) : s.raisesAt address info :=
  busWrite_error h

/-- What is active when an instance of the absolute class has latched `lo` and `hi`. -/
def absoluteActive (lo hi : Byte) : List (Option Instr) :=
  [some (.adcAbs (some lo) (some hi)), some (.staAbs (some lo) (some hi)), some (.ldaAbs (some lo) (some hi))]

theorem mem_absoluteActive {lo hi : Byte} (hm : i.mode = .absolute) (hlatched : latchHi hi (latchLo lo i) = i) :
    some i ∈ absoluteActive lo hi := by
  rw [← hlatched]
  cases i <;> simp_all [Instr.mode, latchLo, latchHi, absoluteActive]

/-- A handler raises at a cycle its class does not declare, or by the access of cycle 2, which keeps the correction of
PC (R212). -/
theorem exec_raises (h : exec i s = .next t) (hs : s.noFault) (ht : t.fault = some info) :
    (i.mode.cycles ≤ s.cycle ∧ info = .cycleContractViolation i.opcode s.cycle s.pc s.dl ∧ t = s.raiseFault info) ∨
    ∃ lo hi, some i ∈ absoluteActive lo hi ∧ s.cycle = 2 ∧ s.raisesAt (effectiveAddress lo hi) info ∧
      t = s.correctPc.raiseFault info := by
  cases exec_next h with
  | undeclaredCycle hc => cases ht; exact .inl ⟨hc, rfl, rfl⟩
  | accessRaises info' lo hi hm hc hlatched hr =>
    cases ht
    have hraise : s.raisesAt (effectiveAddress lo hi) info :=
      hr.elim raisesAt_of_busRead (raisesAt_of_busWrite (s := s.correctPc))
    exact .inr ⟨lo, hi, mem_absoluteActive hm hlatched, hc, hraise, rfl⟩
  | staStores lo hi u hi' hc hw =>
    obtain ⟨devices, rfl⟩ := busWrite_devices_only hw
    cases hs.symm.trans ht
  | _ => cases hs.symm.trans ht

/-- The ways a call can raise, all of them, with the record and the state left. -/
inductive StepRaises (s : State) : FaultInfo → State → Prop where
  | fetch (info : FaultInfo) (ha : s.raisesAt s.pc info) : StepRaises s info ((s.withTraffic []).raiseFault info)
  | increment (b : Byte) (hr : s.busRead s.pc = .ok b) (ho : ¬ s.mayAdvance s.pc) :
      StepRaises s (.pcOverflow s.pc) ((s.latchFetch b).raiseFault (.pcOverflow s.pc))
  | undeclaredCycle (b : Byte) (i : Instr) (hr : s.busRead s.pc = .ok b) (hi : s.inst = some i)
      (hc : i.mode.cycles ≤ s.cycle) :
      StepRaises s (.cycleContractViolation i.opcode s.cycle (s.pc + 1) b)
        ((s.latchFetch b).incrementPc.raiseFault (.cycleContractViolation i.opcode s.cycle (s.pc + 1) b))
  | access (b lo hi : Byte) (info : FaultInfo) (hr : s.busRead s.pc = .ok b)
      (hinst : s.inst ∈ absoluteActive lo hi) (hc : s.cycle = 2)
      (ha : s.raisesAt (effectiveAddress lo hi) info) :
      StepRaises s info ((s.latchFetch b).incrementPc.correctPc.raiseFault info)

/-- The inversion of a step that raised. -/
theorem step_raises (h : step s = .next t) (ht : t.fault = some info) : StepRaises s info t := by
  obtain ⟨hs, ⟨info', hr, rfl⟩ | ⟨b, hr, ho, rfl⟩ | ⟨b, i, hr, -, hi, he⟩ | ⟨b, -, -, -, rfl⟩⟩ := step_next h
  · cases ht; exact .fetch info (raisesAt_of_busRead hr)
  · cases ht; exact .increment b hr ho
  · obtain ⟨hc, rfl, rfl⟩ | ⟨lo, hi', hmem, hc, ha, rfl⟩ := exec_raises he hs ht
    · exact .undeclaredCycle b i hr hi hc
    · exact .access b lo hi' info hr (hi ▸ hmem) hc ha
  · cases hs.symm.trans ht

/-- The correction takes the increment back (40_fetch_dispatch.md R120). -/
@[simp] theorem correctPc_incrementPc (s : State) : s.incrementPc.correctPc = s := by
  simp only [State.incrementPc, State.correctPc, BitVec.add_sub_cancel]

/-- Settles O14: each way a call raises has its record and leaves its state. -/
theorem raiseKeepsWhatCameBefore : Obligations.RaiseKeepsWhatCameBefore := by
  unfold Obligations.RaiseKeepsWhatCameBefore
  intro s t info h ht
  refine ⟨result_of_fault ht, ?_⟩
  cases step_raises h ht with
  | fetch info ha =>
    obtain ⟨m, hm, hle, rfl⟩ := ha
    exact ⟨⟨m, hm, rfl, rfl, hle⟩, .inl ⟨rfl, rfl⟩⟩
  | increment b hr ho =>
    obtain ⟨hpc, hover⟩ := not_not.mp ho
    exact ⟨hpc, hpc, hover, b, hr, rfl⟩
  | undeclaredCycle b i hr hi hc => exact ⟨i, b, hi, hc, rfl, rfl, rfl, rfl, hr, rfl⟩
  | access b lo hi info hr hinst hc ha =>
    obtain ⟨m, hm, hle, rfl⟩ := ha
    refine ⟨⟨m, hm, rfl, rfl, hle⟩, .inr ⟨lo, hi, b, hinst, rfl, hc, hr, ?_⟩⟩
    rw [correctPc_incrementPc]
    rfl

/-! ## A well-formed engine -/

/-- A ready instance is at a cycle its class declares (10_state.md R35). -/
theorem cycle_lt_of_readyAt {cycle : Nat} (h : readyAt i cycle = true) : cycle < i.mode.cycles := by
  cases i <;> simp_all [readyAt, Instr.mode, AddressingMode.cycles] <;> omega

/-- An instance ready for its effect cycle has every scratch field that the cycle reads (10_state.md R34). -/
theorem latched_of_readyAt_effectCycle (h : readyAt i i.mode.effectCycle = true) : i.latched = true := by
  cases i <;> simp_all [readyAt, Instr.mode, AddressingMode.effectCycle, Instr.latched]

theorem readyAt_of_engineWf (hwf : s.engineWf = true) (hi : s.inst = some i) : readyAt i s.cycle = true := by
  rw [engineWf_of_active hi, Bool.and_eq_true] at hwf
  obtain ⟨-, hready⟩ := hwf
  exact hready

/-- A step that stops is a call of the active instance's handler that reads unset scratch. -/
theorem step_fault {r : Fault} (h : step s = .fault r) :
    ∃ i, s.inst = some i ∧ i.latched = false ∧ s.cycle = i.mode.effectCycle := by
  rcases step_cases s with ⟨info, -, hs⟩ | ⟨-, info, -, hs⟩ | ⟨-, b, -, -, hs⟩ | ⟨-, b, i, -, -, hi, hs⟩ |
    ⟨-, b, -, -, -, hs⟩ <;> rw [hs] at h
  · cases h
  · cases h
  · cases h
  · obtain ⟨-, hlatched, hc⟩ := (exec_fault_iff i _ r).mp h
    exact ⟨i, hi, hlatched, hc⟩
  · cases h

/-- Settles O47: the active instance is ready, so it is latched for its effect cycle, and at a declared cycle. -/
theorem cycleContractIsNeverViolated : Obligations.CycleContractIsNeverViolated := by
  unfold Obligations.CycleContractIsNeverViolated
  intro s hwf
  constructor
  · intro r h
    obtain ⟨i, hi, hlatched, hc⟩ := step_fault h
    have hready := hc ▸ readyAt_of_engineWf hwf hi
    exact Bool.false_ne_true (hlatched.symm.trans (latched_of_readyAt_effectCycle hready))
  · intro t op cycle pc dl h ht
    obtain ⟨-, i, b, hi, hc, -⟩ := raiseKeepsWhatCameBefore s t _ h ht
    exact Nat.not_lt.mpr hc (cycle_lt_of_readyAt (readyAt_of_engineWf hwf hi))

/-! ## Runs that never stop -/

/-- Under a well-formed configuration no access raises (20_memory.md R53). -/
theorem not_raisesAt_of_wellFormedConfig (hwf : s.wellFormedConfig = true) : ¬ s.raisesAt address info := by
  rintro ⟨m, hm, hle, -⟩
  obtain ⟨hmem, hin⟩ := resolve_some hm
  have ha := accepts_of_mappingFits (List.all_eq_true.mp hwf m hmem) hin
  exact Nat.not_lt.mpr hle (of_decide_eq_true ha)

/-- Whether a configuration is well formed depends on the mapping list and the capacities only. -/
theorem State.sameHardware.wellFormedConfig (h : s.sameHardware t) (hwf : s.wellFormedConfig = true) :
    t.wellFormedConfig = true := by
  obtain ⟨hconfig, -, hshape⟩ := h
  have hfits : t.mappingFits = s.mappingFits := funext fun m => by
    obtain ⟨hcapacity, -⟩ := hshape m.device
    rw [State.mappingFits, State.mappingFits, hcapacity]
  rw [State.wellFormedConfig, hconfig, hfits]
  exact hwf

/-- What every step keeps, and with which no step raises, stops or is refused (R214). -/
structure State.RunsOn (s : State) : Prop where
  engine : s.engineWf = true
  config : s.wellFormedConfig = true
  wrap : s.config.pcOverflow = .wrap
  noFault : s.noFault

/-- No step raises: the fetch and the access have their offsets, the increment may wrap, and the cycle is declared. -/
theorem State.RunsOn.noFault_of_step (hs : s.RunsOn) (h : step s = .next t) : t.noFault := by
  obtain ⟨-, hcontract⟩ := cycleContractIsNeverViolated s hs.engine
  cases ht : t.fault with
  | none => exact ht
  | some info =>
    cases step_raises h ht with
    | fetch info ha => exact absurd ha (not_raisesAt_of_wellFormedConfig hs.config)
    | increment b hr ho => exact absurd (mayAdvance_of_wrap hs.wrap s.pc) ho
    | undeclaredCycle => exact absurd ht (hcontract _ _ _ _ _ h)
    | access b lo hi info hr hinst hc ha => exact absurd ha (not_raisesAt_of_wellFormedConfig hs.config)

theorem State.RunsOn.of_step (hs : s.RunsOn) (h : step s = .next t) : t.RunsOn := by
  obtain ⟨hconfig, -⟩ := step_config_and_devices h
  exact {
    engine := stepKeepsEngineWf s t hs.engine h
    config := (step_sameHardware s t h).wellFormedConfig hs.config
    wrap := (congrArg Config.pcOverflow hconfig).trans hs.wrap
    noFault := hs.noFault_of_step h }

/-- Only a faulted state's step is refused (R213). -/
theorem step_ne_refused (hf : s.noFault) (r : Refusal) : step s ≠ .refused r := by
  rcases step_cases s with ⟨info, hs, -⟩ | ⟨-, info, -, hs⟩ | ⟨-, b, -, -, hs⟩ | ⟨-, b, i, -, -, -, hs⟩ |
    ⟨-, b, -, -, -, hs⟩
  · cases hf.symm.trans hs
  · rw [hs]; nofun
  · rw [hs]; nofun
  · rw [hs]; exact exec_ne_refused i _ r
  · rw [hs]; nofun

theorem State.RunsOn.exists_step (hs : s.RunsOn) : ∃ t, step s = .next t ∧ t.RunsOn := by
  obtain ⟨hstops, -⟩ := cycleContractIsNeverViolated s hs.engine
  cases h : step s with
  | next t => exact ⟨t, rfl, hs.of_step h⟩
  | fault r => exact absurd h (hstops r)
  | refused r => exact absurd h (step_ne_refused hs.noFault r)

/-- Where every step answers a next state and keeps `P`, so does every run. -/
theorem exists_runFor_of_invariant {P : State → Prop} (hstep : ∀ s, P s → ∃ t, step s = .next t ∧ P t) (n : Nat) :
    ∀ s, P s → ∃ t, runFor n s = .next t ∧ P t := by
  induction n with
  | zero => exact fun s hs => ⟨s, runFor_zero s, hs⟩
  | succ n ih =>
    intro s hs
    obtain ⟨u, hu, hPu⟩ := hstep s hs
    obtain ⟨t, ht, hPt⟩ := ih u hPu
    exact ⟨t, (runFor_succ_next hu).trans ht, hPt⟩

/-- Settles O48: by induction over the run, with the invariant `State.RunsOn`. -/
theorem wellFormedRunsNeverStop : Obligations.WellFormedRunsNeverStop := by
  unfold Obligations.WellFormedRunsNeverStop
  intro n s hengine hconfig hwrap hf
  obtain ⟨t, hrun, ht⟩ :=
    exists_runFor_of_invariant (fun _ => State.RunsOn.exists_step) n s ⟨hengine, hconfig, hwrap, hf⟩
  exact ⟨t, hrun, ht.noFault, ht.engine, ht.config⟩

end Sys2Proof.Machine
end

section
/-! PROOFS. Construction and reset (70_reset_and_hazards.md R240), what a step may change in the devices (R243), and
the placing of a word before a run (R242). -/

namespace Sys2Proof.Machine

open Sys2Proof

variable {s t : State} {i : Instr}

/-! ## Construction and reset -/

/-- Settles O43: construction copies what it is given. -/
theorem constructionLeaves : Obligations.ConstructionLeaves := by
  unfold Obligations.ConstructionLeaves
  exact fun s0 c ds => ⟨rfl, rfl, rfl, rfl, rfl, rfl, rfl, rfl, rfl, rfl, rfl⟩

/-- A cold start has a well-formed engine (10_state.md R35). -/
theorem engineWf_of_coldStart (h : s.coldStart) : s.engineWf = true := by
  obtain ⟨hinst, hcycle⟩ := h
  simp [State.engineWf, hinst, hcycle]

/-- Settles O44: the engine's part holds of every construction, the rest of the reference configuration and device. -/
theorem resetMeetsTheInvariants : Obligations.ResetMeetsTheInvariants := by
  unfold Obligations.ResetMeetsTheInvariants
  obtain ⟨hinst, hcycle, hfault, -⟩ := constructionLeaves Launch.reference Config.reference [Device.referenceRam]
  exact ⟨engineWf_of_coldStart ⟨hinst, hcycle⟩, by decide, by decide, by decide, hfault, ⟨hinst, hcycle⟩, rfl⟩

/-! ## What a step may change in the devices -/

/-- `exec` keeps the devices, or it is cycle 2 of an STA abs with both address bytes latched. -/
theorem exec_devices_or_latched_sta (h : exec i s = .next t) :
    t.devices = s.devices ∨ ∃ lo hi, i = .staAbs (some lo) (some hi) ∧ s.cycle = 2 := by
  cases exec_next h with
  | staStores lo hi u hi' hc => exact .inr ⟨lo, hi, hi', hc⟩
  | _ => exact .inl rfl

/-- Settles O42: `step_config_and_devices` keeps the configuration, and only the active instance's call of `exec` can
change a device. -/
theorem onlyStaCycleTwoChangesDevices : Obligations.OnlyStaCycleTwoChangesDevices := by
  unfold Obligations.OnlyStaCycleTwoChangesDevices
  intro s t h
  obtain ⟨hconfig, -⟩ := step_config_and_devices h
  refine ⟨congrArg Config.mappings hconfig, fun hchanged => ?_⟩
  obtain ⟨-, ⟨info, -, rfl⟩ | ⟨b, -, -, rfl⟩ | ⟨b, i, -, -, hinst, he⟩ | ⟨b, -, -, -, rfl⟩⟩ := step_next h
  · exact absurd rfl hchanged
  · exact absurd rfl hchanged
  · obtain hkept | ⟨lo, hi, rfl, hc⟩ := exec_devices_or_latched_sta he
    · exact absurd hkept hchanged
    · exact ⟨lo, hi, hinst, hc⟩
  · exact absurd rfl hchanged

/-! ## Placing a word -/

theorem decodeTableWord_eq_some_iff {nbits w : Nat} :
    decodeTableWord nbits w = some i ↔ ∃ rest, decode ExtOpcodes.all (tableBytes nbits w) = .ok (i, rest) := by
  unfold decodeTableWord
  cases decode ExtOpcodes.all (tableBytes nbits w) with
  | ok decoded => obtain ⟨j, rest⟩ := decoded; simp
  | error reject => simp

/-- Where the placed bytes decode, the placed state has their instruction active at its effect cycle, and PC past its
bytes, where a fetch is ensured. -/
theorem placeInstruction_of_decode {bytes rest : List Byte} (h : decode s.config.ext bytes = .ok (i, rest)) :
    s.placeInstruction bytes =
      { (s.placeBytes s.pc bytes).ensureFetch (s.pc + BitVec.ofNat 16 i.mode.length) with
        inst := some i, cycle := i.mode.effectCycle, pc := s.pc + BitVec.ofNat 16 i.mode.length, fault := none } := by
  rw [State.placeInstruction, h]

/-- Settles O49: the placed state's step fetches at PC, which `ensureFetch` makes possible, and calls `exec`; placing
keeps the registers. -/
theorem placedWordRunsNext : Obligations.PlacedWordRunsNext := by
  unfold Obligations.PlacedWordRunsNext
  intro s nbits w i hext hwrap hword
  obtain ⟨rest, hdecode⟩ := decodeTableWord_eq_some_iff.mp hword
  rw [← hext] at hdecode
  rw [State.withFetchWord, placeInstruction_of_decode hdecode]
  obtain ⟨⟨b, hread⟩, hensured⟩ := (s.placeBytes s.pc (tableBytes nbits w)).ensureFetch_reads
    (s.pc + BitVec.ofNat 16 i.mode.length)
  have hplaced := State.sameRegisters_trans (s.sameRegisters_placeBytes (tableBytes nbits w) s.pc) hensured
  -- Only these two facts about the placed state matter; naming it keeps unification from evaluating the placing.
  generalize (s.placeBytes s.pc (tableBytes nbits w)).ensureFetch (s.pc + BitVec.ofNat 16 i.mode.length) = placed
    at hread hplaced ⊢
  obtain ⟨ha, hx, hy, hsp, hp, -, -, hoverflow⟩ := hplaced
  exact ⟨_, step_of_active rfl hread (mayAdvance_of_wrap (hoverflow.trans hwrap) _) rfl, rfl, rfl, ha, hx, hy, hsp, hp⟩

end Sys2Proof.Machine
end
